-- ==== Sys2Proof/Word.lean ====
section
/-! DEFINITION. The word types of the block (00_scope.md R6, R7): bit 0 is the least significant bit, all values are
unsigned. -/

namespace Sys2Proof

/-- An 8-bit value: a V register, a timer, a memory cell, the immediate `nn` (R6, R48). -/
abbrev Byte := BitVec 8

/-- A 16-bit value: I, pc, a stack entry, an instruction word (R6, R47). -/
abbrev Word := BitVec 16

/-- The 12-bit address field `nnn` (R48). -/
abbrev Addr := BitVec 12

/-- A general register's number, 0 to 15: the fields `x` and `y` (R14, R48). -/
abbrev Reg := Fin 16

/-- A key's number, 0 to 15 (R24). -/
abbrev KeyIdx := Fin 16

/-- The number of VF, the flag register (R14, R15). -/
abbrev vf : Reg := 15

end Sys2Proof
end

