-- ==== Sys2Proof/Syntax.lean ====
section
/-! DEFINITION. The instructions: one constructor per row of spec/opcode_table.json (30_encoding.md R55), operands as R48
and R49 give them. -/

namespace Sys2Proof

/-- The 34 instructions, in the order of the opcode map (R55). Each constructor's comment gives its pattern and the rule of
its meaning. -/
inductive Instr where
  /-- 00E0, R62. -/
  | cls
  /-- 00EE, R69. -/
  | ret
  /-- 1nnn, R70. -/
  | jp (nnn : Addr)
  /-- 2nnn, R71. -/
  | call (nnn : Addr)
  /-- 3xnn, R72. -/
  | seImm (x : Reg) (nn : Byte)
  /-- 4xnn, R73. -/
  | sneImm (x : Reg) (nn : Byte)
  /-- 5xy0, R74. -/
  | seReg (x y : Reg)
  /-- 6xnn, R79. -/
  | ldImm (x : Reg) (nn : Byte)
  /-- 7xnn, R80. -/
  | addImm (x : Reg) (nn : Byte)
  /-- 8xy0, R81. -/
  | ldReg (x y : Reg)
  /-- 8xy1, R82. -/
  | orReg (x y : Reg)
  /-- 8xy2, R83. -/
  | andReg (x y : Reg)
  /-- 8xy3, R84. -/
  | xorReg (x y : Reg)
  /-- 8xy4, R85. -/
  | addReg (x y : Reg)
  /-- 8xy5, R86. -/
  | subReg (x y : Reg)
  /-- 8xy6, R87. -/
  | shr (x y : Reg)
  /-- 8xy7, R88. -/
  | subn (x y : Reg)
  /-- 8xyE, R89. -/
  | shl (x y : Reg)
  /-- 9xy0, R75. -/
  | sneReg (x y : Reg)
  /-- Annn, R92. -/
  | ldI (nnn : Addr)
  /-- Bnnn, R76. -/
  | jpV0 (nnn : Addr)
  /-- Cxnn, R90. -/
  | rnd (x : Reg) (nn : Byte)
  /-- Dxyn, R63; `n` is the sprite's row count. -/
  | drw (x y : Reg) (n : Nat)
  /-- Ex9E, R99. -/
  | skp (x : Reg)
  /-- ExA1, R100. -/
  | sknp (x : Reg)
  /-- Fx07, R101. -/
  | ldVxDt (x : Reg)
  /-- Fx0A, R102. -/
  | ldVxK (x : Reg)
  /-- Fx15, R103. -/
  | ldDtVx (x : Reg)
  /-- Fx18, R104. -/
  | ldStVx (x : Reg)
  /-- Fx1E, R93. -/
  | addI (x : Reg)
  /-- Fx29, R94. -/
  | ldF (x : Reg)
  /-- Fx33, R95. -/
  | ldB (x : Reg)
  /-- Fx55, R96. -/
  | storeRegs (x : Reg)
  /-- Fx65, R97. -/
  | loadRegs (x : Reg)
deriving DecidableEq, Repr

end Sys2Proof
end

