-- ==== Sys2Proof/Config.lean ====
section
/-! DEFINITION. The parameters of the block (00_scope.md R6) and its one free value, the random oracle (43_alu.md R90). -/

namespace Sys2Proof

/-- `EDGE_POLICY`: what becomes of sprite pixels beyond column 63 or row 31 (41_display.md R65). -/
inductive EdgePolicy where
  | clip
  | wrap
deriving DecidableEq, Repr

/-- `SUB_FLAG_POLICY`: whether 8xy5 and 8xy7 write VF (43_alu.md R86, R88). -/
inductive SubFlagPolicy where
  | noFlag
  | notBorrow
deriving DecidableEq, Repr

/-- `SHIFT_POLICY`: the source register and the flag of 8xy6 and 8xyE (43_alu.md R87, R89). -/
inductive ShiftPolicy where
  | inPlaceNoFlag
  | inPlaceFlag
  | fromVyFlag
deriving DecidableEq, Repr

/-- The values the block is constructed with (R6). The spec hands them to a model as arguments; here a block carries its
own (`State.cfg`), so that a statement about every state is one about every choice of them (log 1). -/
structure Config where
  /-- `STACK_DEPTH`, at least 16. -/
  stackDepth : Nat
  /-- `FONT`: 16 glyphs of 5 bytes, one byte per glyph row from the top (10_state.md R16). -/
  font : Vector Byte 80
  /-- `FONT_BASE`, the address of the font's first byte. -/
  fontBase : Nat
  edgePolicy : EdgePolicy
  subFlagPolicy : SubFlagPolicy
  shiftPolicy : ShiftPolicy
deriving DecidableEq, Repr

/-- `RAND`: the byte of the k-th draw. A FREE VALUE: nothing is known of it, so every statement holds for every generator
(R90; decision D28; log 3). -/
opaque Config.rand : Nat → Byte

end Sys2Proof
end

