-- ==== Sys2Proof/Machine/Params.lean ====
section
/-! DEFINITION. The default values of the block's parameters (00_scope.md R6). -/

namespace Sys2Proof

/-- The default `FONT` (10_state.md R16), one row per glyph, 0 to F. The source does not list these bytes; the spec takes
them from general knowledge (decision D8; log 15). -/
def defaultFont : Vector Byte 80 :=
  #v[0xF0, 0x90, 0x90, 0x90, 0xF0,
     0x20, 0x60, 0x20, 0x20, 0x70,
     0xF0, 0x10, 0xF0, 0x80, 0xF0,
     0xF0, 0x10, 0xF0, 0x10, 0xF0,
     0x90, 0x90, 0xF0, 0x10, 0x10,
     0xF0, 0x80, 0xF0, 0x10, 0xF0,
     0xF0, 0x80, 0xF0, 0x90, 0xF0,
     0xF0, 0x10, 0x20, 0x40, 0x40,
     0xF0, 0x90, 0xF0, 0x90, 0xF0,
     0xF0, 0x90, 0xF0, 0x10, 0xF0,
     0xF0, 0x90, 0xF0, 0x90, 0x90,
     0xE0, 0x90, 0xE0, 0x90, 0xE0,
     0xF0, 0x80, 0x80, 0x80, 0xF0,
     0xE0, 0x90, 0x90, 0x90, 0xE0,
     0xF0, 0x80, 0xF0, 0x80, 0xF0,
     0xF0, 0x80, 0xF0, 0x80, 0x80]

/-- The parameters at their defaults (R6; decisions D7, D8, D17, D18, D21; log 2). -/
def defaultConfig : Config where
  stackDepth := 16
  font := defaultFont
  fontBase := 0x050
  edgePolicy := .clip
  subFlagPolicy := .noFlag
  shiftPolicy := .inPlaceNoFlag

/-- `PROGRAM_BASE`: where the image is loaded, and the entry point (R6; 70_reset_and_hazards.md R124, R125). -/
def programBase : Nat := 0x200

/-- `MAX_PROGRAM_LEN`, 0xFFF - 0x200 (R6; R125; 90_conflicts.md C7). -/
def maxProgramLen : Nat := 0xFFF - 0x200

/-- `MEM_SIZE` (R6; 10_state.md R13). -/
def memSize : Nat := 4096

/-- How many bytes of memory one glyph takes (R16). -/
def glyphBytes : Nat := 5

end Sys2Proof
end

