-- ==== Sys2Proof/Machine/State.lean ====
section
/-! DEFINITION. The state of the block (10_state.md), as plain data, and its value after construction (R29). -/

namespace Sys2Proof.Machine

/-- A fatal error of a step, with the value it records (60_exceptions.md R105). Addresses are natural numbers, as the range
check compares them (20_memory.md R34). -/
inductive FatalError where
  /-- Code 2: fetch or indexed access beyond the 4096 bytes; records the first address outside them. -/
  | addressOutOfRange (addr : Nat)
  /-- Code 3: 2nnn with a full stack; records the address of the call. -/
  | stackOverflow (at_ : Word)
  /-- Code 4: 00EE with an empty stack; records the address of the return. -/
  | stackUnderflow (at_ : Word)
deriving DecidableEq, Repr

/-- Code 5, `UnknownInstruction(w, a)`: not an error but a diagnostic, the word and its address (R105; 30_encoding.md R56). -/
structure Diagnostic where
  word : Word
  address : Word
deriving DecidableEq, Repr

/-- Whether a step completed (30_encoding.md R50). -/
inductive StepOutcome where
  | ok
  | error (e : FatalError)
deriving DecidableEq, Repr

/-- What `step()` returns (R50): the outcome, whether the framebuffer was drawn on, and at most one diagnostic. -/
structure StepResult where
  outcome : StepOutcome
  didDraw : Bool
  diag : Option Diagnostic
deriving DecidableEq, Repr

/-- What `load_program` returns (70_reset_and_hazards.md R125); code 1 records the image's length. -/
inductive LoadResult where
  | ok
  | programTooLarge (len : Nat)
deriving DecidableEq, Repr

/-- Whether a program image has been loaded (10_state.md R26). -/
inductive Phase where
  | empty
  | loaded
deriving DecidableEq, Repr

/-- Whether a fatal error has halted the block: the error and the address of the instruction that raised it (R28). -/
inductive Status where
  | running
  | halted (e : FatalError) (a : Word)
deriving DecidableEq, Repr

/-- The framebuffer: 32 rows, top first, of 64 pixels, leftmost first; true is on (R23). -/
abbrev Framebuffer := Vector (Vector Bool 64) 32

/-- Everything the block holds (10_state.md). The last four fields are the model's own. -/
structure State where
  /-- `mem` (R13): the cells that differ from what construction put there, by rising address (Machine/Memory.lean). -/
  mem : List Host.Cell
  /-- `V[0]` to `V[15]` (R14). -/
  v : Vector Byte 16
  /-- `I` (R17). -/
  iReg : Word
  /-- `pc` (R18): between steps, the address the next step fetches from. -/
  pc : Word
  /-- `stack` (R19): STACK_DEPTH entries, those at SP and above included. -/
  stack : List Word
  /-- `SP` (R20): how many return addresses the stack holds. -/
  sp : Nat
  /-- `DT` (R21). -/
  dt : Byte
  /-- `ST` (R22). -/
  st : Byte
  /-- `FB` (R23). -/
  fb : Framebuffer
  /-- `key` (R24): true is pressed. -/
  key : Vector Bool 16
  /-- `last_key` (R25). -/
  lastKey : Option KeyIdx
  /-- `phase` (R26). -/
  phase : Phase
  /-- `draw_flag` (R27). -/
  drawFlag : Bool
  /-- `status` (R28). -/
  status : Status
  /-- The parameters the block was constructed with (R30, 00_scope.md R6): nothing writes them (log 1). -/
  cfg : Config
  /-- How many bytes RAND has given (43_alu.md R90; log 3). -/
  draws : Nat
  /-- What the last step returned, none before the first (30_encoding.md R50; log 4). -/
  stepResult : Option StepResult
  /-- What the last load returned, none before the first (70_reset_and_hazards.md R125; log 5). -/
  loadResult : Option LoadResult
deriving DecidableEq, Repr

/-- Why the machine stops with a fault. No state a run reaches raises one. -/
inductive Fault where
  /-- Raised by 2nnn and 00EE when the list `stack` has no entry at the index they access, although SP is below STACK_DEPTH
  (2nnn) or above 0 (00EE): only in a state whose stack has not STACK_DEPTH entries or whose SP exceeds them, which
  10_state.md R19 and R20 rule out and no run reaches. SAFE: the model stops where it would have to invent an entry (log 8). -/
  | noStackEntry (index : Nat)
deriving DecidableEq, Repr

/-- Why an operation has no meaning. -/
inductive Refusal where
  /-- An instruction without a meaning: no arm of `exec` answers it. SAFE. -/
  | notModelled (mnemonic : String)
  /-- Raised by `step` in phase Empty: "the model has no move for it" (70_reset_and_hazards.md R126). SAFE: a duty of the host. -/
  | stepBeforeLoad
  /-- Raised by `loadProgram` in phase Loaded (R126). SAFE: a duty of the host. -/
  | secondLoad
  /-- Raised by `setKey` for an index outside 0 to 15 (60_exceptions.md R116). SAFE: a duty of the host. -/
  | noSuchKey (index : Nat)
deriving DecidableEq, Repr

/-- What an instruction or an operation of the host answers. -/
abbrev Result := Host.Outcome State Fault Refusal

/-- The block right after construction with parameters `c` (10_state.md R29, 70_reset_and_hazards.md R123). -/
def State.construct (c : Config) : State where
  mem := []
  v := Vector.replicate 16 0
  iReg := 0
  pc := BitVec.ofNat 16 programBase
  stack := List.replicate c.stackDepth 0
  sp := 0
  dt := 0
  st := 0
  fb := Vector.replicate 32 (Vector.replicate 64 false)
  key := Vector.replicate 16 false
  lastKey := none
  phase := .empty
  drawFlag := false
  status := .running
  cfg := c
  draws := 0
  stepResult := none
  loadResult := none

/-- The machine right after reset: construction with the default parameters (00_scope.md R6). -/
def State.reset : State := State.construct defaultConfig

end Sys2Proof.Machine
end

