-- ==== Sys2Proof/Machine/Memory.lean ====
section
/-! DEFINITION. The memory array (10_state.md R13): 4096 bytes, held as the cells that differ from their value after
construction, by strictly rising address. -/

namespace Sys2Proof.Machine

/-- What a cell holds after construction, and what an unlisted address reads as: the font at FONT_BASE, 0x00 everywhere
else (10_state.md R29; log 9). -/
def initialByte (c : Config) (a : Nat) : Byte :=
  if a < c.fontBase then 0 else (c.font[a - c.fontBase]?).getD 0

/-- The byte at an address. -/
def Memory.read (c : Config) : List Host.Cell → Nat → Byte
  | [], a => initialByte c a
  | (k, b) :: m, a => if a = k then b else Memory.read c m a

/-- The cell of an address and a byte: none where the byte is the unlisted one. -/
def Memory.entry (c : Config) (a : Nat) (b : Byte) : List Host.Cell :=
  if b = initialByte c a then [] else [(a, b)]

/-- Write a byte, keeping the cells in rising order and dropping a cell that holds the unlisted byte. -/
def Memory.write (c : Config) : List Host.Cell → Nat → Byte → List Host.Cell
  | [], a, b => Memory.entry c a b
  | (k, x) :: m, a, b =>
    if a < k then Memory.entry c a b ++ (k, x) :: m
    else if a = k then Memory.entry c a b ++ m
    else (k, x) :: Memory.write c m a b

/-- The canonical form: addresses strictly rising, each inside the 4096 bytes, and no cell equal to the unlisted byte. -/
abbrev Memory.wf (c : Config) (m : List Host.Cell) : Prop :=
  m.Pairwise (fun e f => e.1 < f.1) ∧ ∀ e ∈ m, e.1 < memSize ∧ e.2 ≠ initialByte c e.1

end Sys2Proof.Machine
end

