-- ==== Sys2Proof/Machine/Ops.lean ====
section
/-! DEFINITION. The named operations over the state: one update per field, the memory primitives (20_memory.md R34, R35), the
framebuffer's pixels, the call stack, completing an instruction, and raising a fatal error (60_exceptions.md R107). -/

namespace Sys2Proof.Machine

/-! ### One update per field -/

/-- Write `V[r]`. -/
def State.setV (s : State) (r : Reg) (b : Byte) : State := { s with v := s.v.set r.val b }

/-- Write I. -/
def State.setI (s : State) (w : Word) : State := { s with iReg := w }

/-- Write pc. -/
def State.setPc (s : State) (w : Word) : State := { s with pc := w }

/-- Write the stack's entry `k`; where the stack has none, nothing. -/
def State.setStackEntry (s : State) (k : Nat) (w : Word) : State := { s with stack := s.stack.set k w }

/-- Write SP. -/
def State.setSp (s : State) (n : Nat) : State := { s with sp := n }

/-- Write DT. -/
def State.setDt (s : State) (b : Byte) : State := { s with dt := b }

/-- Write ST. -/
def State.setSt (s : State) (b : Byte) : State := { s with st := b }

/-- Write the whole framebuffer. -/
def State.setFb (s : State) (f : Framebuffer) : State := { s with fb := f }

/-- Write one key state. -/
def State.setKeyState (s : State) (k : KeyIdx) (p : Bool) : State := { s with key := s.key.set k.val p }

/-- Write `last_key`. -/
def State.setLastKey (s : State) (k : Option KeyIdx) : State := { s with lastKey := k }

/-- Write the phase. -/
def State.setPhase (s : State) (p : Phase) : State := { s with phase := p }

/-- Write the draw flag. -/
def State.setDrawFlag (s : State) (b : Bool) : State := { s with drawFlag := b }

/-- Write the status. -/
def State.setStatus (s : State) (x : Status) : State := { s with status := x }

/-- Write the number of RAND draws. -/
def State.setDraws (s : State) (n : Nat) : State := { s with draws := n }

/-- Write what the step returns. -/
def State.setStepResult (s : State) (r : StepResult) : State := { s with stepResult := some r }

/-- Write what the load returns. -/
def State.setLoadResult (s : State) (r : LoadResult) : State := { s with loadResult := some r }

/-- Write one byte of memory; outside the 4096 bytes there is no cell and nothing is written. -/
def State.writeByte (s : State) (a : Nat) (b : Byte) : State :=
  if a < memSize then { s with mem := Memory.write s.cfg s.mem a b } else s

/-! ### Reads -/

/-- `V[r]` (10_state.md R14). -/
def State.getV (s : State) (r : Reg) : Byte := s.v[r.val]

/-- The byte of memory at an address (20_memory.md R40: reading changes nothing). -/
def State.readByte (s : State) (a : Nat) : Byte := Memory.read s.cfg s.mem a

/-- `FB[row][col]` (10_state.md R23). -/
def State.pixel (s : State) (row : Fin 32) (col : Fin 64) : Bool := s.fb[row.val][col.val]

/-! ### The memory primitives -/

/-- `MemRead(a, 1)` (R34). -/
def memRead (s : State) (a : Nat) : Except FatalError Byte :=
  if 0xFFF < a then .error (.addressOutOfRange a) else .ok (s.readByte a)

/-- `MemRead(a, 2)`, the fetch's read: the byte at `a` is bits 15:8 (R34, R36). -/
def memReadWord (s : State) (a : Nat) : Except FatalError Word :=
  match memRead s a with
  | .error e => .error e
  | .ok hi =>
    match memRead s (a + 1) with
    | .error e => .error e
    | .ok lo => .ok (hi ++ lo)

/-- `MemWrite(a, 1, b)` (R34). -/
def memWrite (s : State) (a : Nat) (b : Byte) : Except FatalError State :=
  if 0xFFF < a then .error (.addressOutOfRange a) else .ok (s.writeByte a b)

/-- The check before any byte of the `len` bytes from `a` is touched: the error records the first address beyond 0xFFF
(R35; 44_index_memory.md R91). No bytes, no check (41_display.md R67). -/
def blockFault (a len : Nat) : Option FatalError :=
  if 0 < len ∧ 0xFFF < a + len - 1 then some (.addressOutOfRange (if 0xFFF < a then a else 0x1000)) else none

/-- The `len` bytes from `a`, in rising order. -/
def State.bytesAt (s : State) (a len : Nat) : List Byte := (List.range len).map (fun k => s.readByte (a + k))

/-- Write bytes at rising addresses from `a`. -/
def State.writeBytes (s : State) (a : Nat) : List Byte → State
  | [] => s
  | b :: bs => (s.writeByte a b).writeBytes (a + 1) bs

/-- Read a block of bytes, all or nothing (R35). -/
def readBlock (s : State) (a len : Nat) : Except FatalError (List Byte) :=
  match blockFault a len with
  | some e => .error e
  | none => .ok (s.bytesAt a len)

/-- Write a block of bytes, all or nothing (R35). -/
def writeBlock (s : State) (a : Nat) (bs : List Byte) : Except FatalError State :=
  match blockFault a bs.length with
  | some e => .error e
  | none => .ok (s.writeBytes a bs)

/-! ### The framebuffer -/

/-- A framebuffer with every pixel off (41_display.md R62). -/
def blankFb : Framebuffer := Vector.replicate 32 (Vector.replicate 64 false)

/-- A pixel of a framebuffer. -/
def Framebuffer.get (f : Framebuffer) (p : Fin 32 × Fin 64) : Bool := f[p.1.val][p.2.val]

/-- Turn one pixel over: `FB[row][col] <- FB[row][col] XOR 1` (R63). -/
def Framebuffer.toggle (f : Framebuffer) (p : Fin 32 × Fin 64) : Framebuffer :=
  f.set p.1.val (f[p.1.val].set p.2.val (!(Framebuffer.get f p)))

/-- The column offset `c` of a sprite byte: bit 7 is the leftmost pixel (R64; log 16). -/
def spriteBit (b : Byte) (c : Nat) : Bool := b.getLsbD (7 - c)

/-- `Place(r, c)`: where a sprite pixel lands, if anywhere (R65). -/
def placePixel : EdgePolicy → Nat → Nat → Option (Fin 32 × Fin 64)
  | .clip, r, c => if h : r < 32 ∧ c < 64 then some (⟨r, h.1⟩, ⟨c, h.2⟩) else none
  | .wrap, r, c => some (⟨r % 32, Nat.mod_lt _ (by decide)⟩, ⟨c % 64, Nat.mod_lt _ (by decide)⟩)

/-- The pixels one sprite byte turns over, in the order of its bits, from row `r`, column `x0` (R63). -/
def rowPixels (pol : EdgePolicy) (r x0 : Nat) (b : Byte) : List (Fin 32 × Fin 64) :=
  (List.range 8).filterMap (fun c => if spriteBit b c then placePixel pol r (x0 + c) else none)

/-- The pixels a sprite turns over, in the order of its bytes and bits (R63). -/
def spritePixels (pol : EdgePolicy) (y0 x0 : Nat) : List Byte → List (Fin 32 × Fin 64)
  | [] => []
  | b :: bs => rowPixels pol y0 x0 b ++ spritePixels pol (y0 + 1) x0 bs

/-- One pixel of a draw: `hit` becomes true if the pixel was on, and the pixel is turned over (R63, R66). -/
def drawPixel (d : Framebuffer × Bool) (p : Fin 32 × Fin 64) : Framebuffer × Bool :=
  (Framebuffer.toggle d.1 p, d.2 || Framebuffer.get d.1 p)

/-- A draw: the framebuffer after it and the collision (R63, R66). -/
def drawPixels (f : Framebuffer) (ps : List (Fin 32 × Fin 64)) : Framebuffer × Bool :=
  ps.foldl drawPixel (f, false)

/-! ### The instruction cycle's ends -/

/-- The advance: `pc <- trunc_16(pc + 2)` (30_encoding.md R52). A meaning is given the state as the fetch found it, with pc
the instruction's own address, and advances it first (log 11). -/
def State.advance (s : State) : State := s.setPc (s.pc + 2)

/-- The step completed: `{ outcome = Ok, did_draw, diag = [] }` (R54). -/
def completeWith (didDraw : Bool) (s : State) : Result := .next (s.setStepResult ⟨.ok, didDraw, none⟩)

/-- An instruction that does not draw completed. -/
def complete (s : State) : Result := completeWith false s

/-- An instruction that draws completed: it sets the draw flag, whether or not a pixel changed (10_state.md R27; R54). -/
def completeDraw (s : State) : Result := completeWith true (s.setDrawFlag true)

/-- `raise e`, from the state BEFORE the step: every write of the step is discarded, the status records the error and the
instruction's address, and the step returns the error (60_exceptions.md R107; log 6). -/
def raise (e : FatalError) (s : State) : Result :=
  .next ((s.setStatus (.halted e s.pc)).setStepResult ⟨.error e, false, none⟩)

/-- Go on with a value, or raise the error from the state `s` before the step. -/
def orRaise {α : Type} (s : State) (x : Except FatalError α) (k : α → Result) : Result :=
  match x with
  | .error e => raise e s
  | .ok y => k y

/-! ### The call stack (10_state.md R19, R20) -/

/-- `2nnn`'s half of the stack: raise StackOverflow when the stack is full, else store `ret` at `stack[SP]`, count it, and go
on (42_control_flow.md R71). `s` is the state before the step, `s1` the one the instruction works on. -/
def pushReturn (s s1 : State) (ret : Word) (k : State → Result) : Result :=
  if s1.cfg.stackDepth ≤ s1.sp then raise (.stackOverflow s.pc) s
  else if s1.sp < s1.stack.length then k ((s1.setStackEntry s1.sp ret).setSp (s1.sp + 1))
  else .fault (.noStackEntry s1.sp)

/-- `00EE`'s half: raise StackUnderflow when the stack is empty, else uncount the top entry and go on with it (R69). -/
def popReturn (s s1 : State) (k : State → Word → Result) : Result :=
  if s1.sp = 0 then raise (.stackUnderflow s.pc) s
  else
    match s1.stack[s1.sp - 1]? with
    | some w => k (s1.setSp (s1.sp - 1)) w
    | none => .fault (.noStackEntry (s1.sp - 1))

/-! ### Randomness and the error codes -/

/-- `draw RAND`: the next byte of the oracle, a free value, and the state with one more draw counted (00_scope.md R8; R90). -/
def drawRand (s : State) : Byte × State := (Config.rand s.draws, s.setDraws (s.draws + 1))

/-- The code of a fatal error (60_exceptions.md R105). -/
def FatalError.code : FatalError → Nat
  | .addressOutOfRange _ => 2
  | .stackOverflow _ => 3
  | .stackUnderflow _ => 4

/-- The code of a load's result: `ProgramTooLarge` is 1, and a load that succeeded has none (R105). -/
def LoadResult.code : LoadResult → Option Nat
  | .ok => none
  | .programTooLarge _ => some 1

/-- The code of the diagnostic `UnknownInstruction` (R105). -/
def Diagnostic.code (_ : Diagnostic) : Nat := 5

end Sys2Proof.Machine
end

