-- ==== Sys2Proof/Machine/Operands.lean ====
section
/-! DEFINITION. The operand forms (00_scope.md R7; 30_encoding.md R49; 44_index_memory.md R91). -/

namespace Sys2Proof.Machine

/-- A 12-bit address as a 16-bit value: `zext_16(nnn)` (R49). -/
def zextAddr (nnn : Addr) : Word := nnn.setWidth 16

/-- A register's value as a 16-bit value: `zext_16(V[x])`. -/
def zextByte (b : Byte) : Word := b.setWidth 16

/-- The one data addressing mode, indexed by I: the address of the first byte, as a natural number (R91). -/
def State.indexAddr (s : State) : Nat := s.iReg.toNat

/-- The low nibble of a register, `V[x] mod 16` (44_index_memory.md R94). -/
def lowNibble (b : Byte) : Nat := b.toNat % 16

/-- The address of glyph `g` of the font: `FONT_BASE + 5 × g` (R94). -/
def glyphAddr (c : Config) (g : Nat) : Word := BitVec.ofNat 16 (c.fontBase + glyphBytes * g)

/-- The sprite's first column, `V[x] mod 64` (41_display.md R63). -/
def startColumn (b : Byte) : Nat := b.toNat % 64

/-- The sprite's first row, `V[y] mod 32` (R63). -/
def startRow (b : Byte) : Nat := b.toNat % 32

/-- The three decimal digits of a byte, hundreds first (44_index_memory.md R95). -/
def bcdDigits (b : Byte) : List Byte :=
  [BitVec.ofNat 8 (b.toNat / 100), BitVec.ofNat 8 (b.toNat / 10 % 10), BitVec.ofNat 8 (b.toNat % 10)]

/-- The values of V0 to Vx, in order (R96). -/
def State.regsUpTo (s : State) (x : Reg) : List Byte := s.v.toList.take (x.val + 1)

/-- Write bytes to the registers from number `k` on, in order (R97). -/
def State.setRegsFrom (s : State) (k : Nat) : List Byte → State
  | [] => s
  | b :: bs => (if h : k < 16 then s.setV ⟨k, h⟩ b else s).setRegsFrom (k + 1) bs

/-- The key a register's value names: 0 to 15 a key, 16 and above none (45_keys_timers.md R98). -/
def keyOf (b : Byte) : Option KeyIdx := if h : b.toNat < 16 then some ⟨b.toNat, h⟩ else none

/-- Whether the key a register's value names is pressed; a value that names no key reads as not pressed (R98). -/
def State.keyPressed (s : State) (b : Byte) : Bool :=
  match keyOf b with
  | some k => s.key[k.val]
  | none => false

/-- A key's number as a register value (R102). -/
def keyByte (k : KeyIdx) : Byte := BitVec.ofNat 8 k.val

/-- The skip: `pc <- trunc_16(pc + 2)` when the condition holds (42_control_flow.md R68, R72). -/
def State.skipIf (s : State) (c : Bool) : State := if c then s.setPc (s.pc + 2) else s

end Sys2Proof.Machine
end

