-- ==== Sys2Proof/Machine/Cycle.lean ====
section
/-! DEFINITION. The parts of the instruction cycle around an instruction's meaning: the fetch, the unknown word, the step of a
halted block (30_encoding.md; 60_exceptions.md R108). -/

namespace Sys2Proof.Machine

/-- Fetch: the word at pc, most significant byte first (R51; 20_memory.md R36). -/
def fetch (s : State) : Except FatalError Word := memReadWord s s.pc.toNat

/-- A word that is no instruction: the advance, and the diagnostic with the word and its address; nothing else (R56). -/
def execUnknown (w : Word) (s : State) : Result :=
  .next (s.advance.setStepResult ⟨.ok, false, some ⟨w, s.pc⟩⟩)

/-- A step of a halted block fetches nothing, changes nothing and returns the error again (R108). -/
def stepHalted (e : FatalError) (s : State) : Result := .next (s.setStepResult ⟨.error e, false, none⟩)

/-- A table word laid out in memory at pc, where the next step fetches it; a byte that would lie outside memory is not
written. -/
def State.placeWordAtPc (s : State) (nbits w : Nat) : State := s.writeBytes s.pc.toNat (tableBytes nbits w)

end Sys2Proof.Machine
end

