-- ==== Sys2Proof/Machine/Flags.lean ====
section
/-! DEFINITION. The flag computations, and the orders in which VF and Vx are written (10_state.md R15; 43_alu.md R78). -/

namespace Sys2Proof.Machine

/-- A flag as the byte VF holds: 1 or 0. -/
def flagByte (b : Bool) : Byte := if b then 1 else 0

/-- The carry of an 8-bit addition: the sum exceeds 255 (R85). -/
def addCarry (a b : Byte) : Bool := decide (255 < a.toNat + b.toNat)

/-- Not borrow: `a - b` does not borrow when `a >= b` (R86). -/
def notBorrow (a b : Byte) : Bool := decide (b.toNat ≤ a.toNat)

/-- The bit a right shift by 1 shifts out, bit 0 (R87). -/
def shrOut (b : Byte) : Bool := b.getLsbD 0

/-- The bit a left shift by 1 shifts out, bit 7 (R89). -/
def shlOut (b : Byte) : Bool := b.getLsbD 7

/-- Write VF. -/
def State.setFlag (s : State) (b : Bool) : State := s.setV vf (flagByte b)

/-- The order of 8xy4: VF first, Vx last, so that with x = F the result stays (R78, R85; log 17). -/
def State.flagThenResult (s : State) (x : Reg) (r : Byte) (f : Bool) : State := (s.setFlag f).setV x r

/-- The order of the flag policies: Vx first, VF last, so that with x = F the flag stays (R78). -/
def State.resultThenFlag (s : State) (x : Reg) (r : Byte) (f : Bool) : State := (s.setV x r).setFlag f

/-- The end of a subtraction: Vx, and under `NotBorrow` the flag after it (R86, R88). -/
def State.subWrite (s : State) (x : Reg) (d : Byte) (f : Bool) : State :=
  match s.cfg.subFlagPolicy with
  | .noFlag => s.setV x d
  | .notBorrow => s.resultThenFlag x d f

/-- A shift by 1, by policy: the source register, and whether the bit shifted out goes to VF (R87, R89). -/
def State.shiftWrite (s : State) (x y : Reg) (shift : Byte → Byte) (out : Byte → Bool) : State :=
  match s.cfg.shiftPolicy with
  | .inPlaceNoFlag => s.setV x (shift (s.getV x))
  | .inPlaceFlag => s.resultThenFlag x (shift (s.getV x)) (out (s.getV x))
  | .fromVyFlag => s.resultThenFlag x (shift (s.getV y)) (out (s.getV y))

end Sys2Proof.Machine
end

