-- ==== Sys2Proof/Machine/Alu.lean ====
section
/-! DEFINITION. Register loads and the ALU (43_alu.md). Arithmetic is 8-bit and wraps (R77). -/

namespace Sys2Proof.Machine

/-- 6xnn, load an immediate (R79). -/
def execLdImm (x : Reg) (nn : Byte) (s : State) : Result := complete (s.advance.setV x nn)

/-- 7xnn, add an immediate, no flag (R80). -/
def execAddImm (x : Reg) (nn : Byte) (s : State) : Result := complete (s.advance.setV x (s.getV x + nn))

/-- 8xy0, assign (R81). -/
def execLdReg (x y : Reg) (s : State) : Result := complete (s.advance.setV x (s.getV y))

/-- 8xy1, or; VF is kept (R82). -/
def execOrReg (x y : Reg) (s : State) : Result := complete (s.advance.setV x (s.getV x ||| s.getV y))

/-- 8xy2, and; VF is kept (R83). -/
def execAndReg (x y : Reg) (s : State) : Result := complete (s.advance.setV x (s.getV x &&& s.getV y))

/-- 8xy3, exclusive or; VF is kept (R84). -/
def execXorReg (x y : Reg) (s : State) : Result := complete (s.advance.setV x (s.getV x ^^^ s.getV y))

/-- 8xy4, add with the carry into VF, Vx written last (R85). -/
def execAddReg (x y : Reg) (s : State) : Result :=
  complete (s.advance.flagThenResult x (s.getV x + s.getV y) (addCarry (s.getV x) (s.getV y)))

/-- 8xy5, subtract (R86). -/
def execSubReg (x y : Reg) (s : State) : Result :=
  complete (s.advance.subWrite x (s.getV x - s.getV y) (notBorrow (s.getV x) (s.getV y)))

/-- 8xy6, shift right by 1 (R87). -/
def execShr (x y : Reg) (s : State) : Result := complete (s.advance.shiftWrite x y (fun b => b >>> 1) shrOut)

/-- 8xy7, subtract reversed (R88). -/
def execSubn (x y : Reg) (s : State) : Result :=
  complete (s.advance.subWrite x (s.getV y - s.getV x) (notBorrow (s.getV y) (s.getV x)))

/-- 8xyE, shift left by 1 (R89). -/
def execShl (x y : Reg) (s : State) : Result := complete (s.advance.shiftWrite x y (fun b => b <<< 1) shlOut)

/-- Cxnn, a random byte and nn (R90). -/
def execRnd (x : Reg) (nn : Byte) (s : State) : Result :=
  let d := drawRand s.advance
  complete (d.2.setV x (d.1 &&& nn))

end Sys2Proof.Machine
end

