-- ==== Sys2Proof/Machine/Control.lean ====
section
/-! DEFINITION. Control transfer (42_control_flow.md). -/

namespace Sys2Proof.Machine

/-- 00EE, return (R69). -/
def execRet (s : State) : Result := popReturn s s.advance fun t w => complete (t.setPc w)

/-- 1nnn, jump (R70). -/
def execJp (nnn : Addr) (s : State) : Result := complete (s.advance.setPc (zextAddr nnn))

/-- 2nnn, call: the pushed address is the advanced pc (R71). -/
def execCall (nnn : Addr) (s : State) : Result :=
  pushReturn s s.advance s.advance.pc fun t => complete (t.setPc (zextAddr nnn))

/-- 3xnn, skip if Vx equals nn (R72). -/
def execSeImm (x : Reg) (nn : Byte) (s : State) : Result := complete (s.advance.skipIf (s.getV x == nn))

/-- 4xnn, skip if Vx differs from nn (R73). -/
def execSneImm (x : Reg) (nn : Byte) (s : State) : Result := complete (s.advance.skipIf (s.getV x != nn))

/-- 5xy0, skip if Vx equals Vy (R74). -/
def execSeReg (x y : Reg) (s : State) : Result := complete (s.advance.skipIf (s.getV x == s.getV y))

/-- 9xy0, skip if Vx differs from Vy (R75). -/
def execSneReg (x y : Reg) (s : State) : Result := complete (s.advance.skipIf (s.getV x != s.getV y))

/-- Bnnn, jump to nnn + V0, not masked (R76). -/
def execJpV0 (nnn : Addr) (s : State) : Result :=
  complete (s.advance.setPc (zextAddr nnn + zextByte (s.getV 0)))

end Sys2Proof.Machine
end

