-- ==== Sys2Proof/Machine/Display.lean ====
section
/-! DEFINITION. The display instructions (41_display.md). Every meaning is given the state as the fetch found it, with pc the
instruction's own address. -/

namespace Sys2Proof.Machine

/-- 00E0, clear the screen (R62). -/
def execCls (s : State) : Result := completeDraw (s.advance.setFb blankFb)

/-- The state after a sprite of bytes `rows` is drawn with its corner where Vx and Vy say, VF written last (R63). -/
def State.drawSprite (s : State) (x y : Reg) (rows : List Byte) : State :=
  let d := drawPixels s.fb (spritePixels s.cfg.edgePolicy (startRow (s.getV y)) (startColumn (s.getV x)) rows)
  (s.setFb d.1).setFlag d.2

/-- Dxyn, draw a sprite of `n` rows from memory at I (R63 to R67). -/
def execDrw (x y : Reg) (n : Nat) (s : State) : Result :=
  orRaise s (readBlock s.advance s.indexAddr n) fun rows => completeDraw (s.advance.drawSprite x y rows)

end Sys2Proof.Machine
end

