-- ==== Sys2Proof/Machine/IndexMem.lean ====
section
/-! DEFINITION. The index register, the font address, BCD and the register block transfers (44_index_memory.md). -/

namespace Sys2Proof.Machine

/-- Annn, set I (R92). -/
def execLdI (nnn : Addr) (s : State) : Result := complete (s.advance.setI (zextAddr nnn))

/-- Fx1E, add Vx to I modulo 2^16, no flag (R93). -/
def execAddI (x : Reg) (s : State) : Result := complete (s.advance.setI (s.iReg + zextByte (s.getV x)))

/-- Fx29, the address of a font glyph (R94). -/
def execLdF (x : Reg) (s : State) : Result := complete (s.advance.setI (glyphAddr s.cfg (lowNibble (s.getV x))))

/-- Fx33, store the three decimal digits of Vx at I (R95). -/
def execLdB (x : Reg) (s : State) : Result :=
  orRaise s (writeBlock s.advance s.indexAddr (bcdDigits (s.getV x))) complete

/-- Fx55, store V0 to Vx at I; I is kept (R96). -/
def execStoreRegs (x : Reg) (s : State) : Result :=
  orRaise s (writeBlock s.advance s.indexAddr (s.regsUpTo x)) complete

/-- Fx65, load V0 to Vx from I; I is kept (R97). -/
def execLoadRegs (x : Reg) (s : State) : Result :=
  orRaise s (readBlock s.advance s.indexAddr (x.val + 1)) fun bs => complete (s.advance.setRegsFrom 0 bs)

end Sys2Proof.Machine
end

