-- ==== Sys2Proof/Machine/KeysTimers.lean ====
section
/-! DEFINITION. Key tests, the key wait and the timers (45_keys_timers.md). -/

namespace Sys2Proof.Machine

/-- Ex9E, skip if the key Vx names is pressed (R98, R99). -/
def execSkp (x : Reg) (s : State) : Result := complete (s.advance.skipIf (s.keyPressed (s.getV x)))

/-- ExA1, skip if the key Vx names is not pressed (R98, R100). -/
def execSknp (x : Reg) (s : State) : Result := complete (s.advance.skipIf (!s.keyPressed (s.getV x)))

/-- Fx07, read DT (R101). -/
def execLdVxDt (x : Reg) (s : State) : Result := complete (s.advance.setV x s.dt)

/-- Fx0A, wait for a key: with no press recorded pc goes back to this instruction; else the press is consumed (R102). -/
def execLdVxK (x : Reg) (s : State) : Result :=
  match s.lastKey with
  | none => complete (s.advance.setPc (s.advance.pc - 2))
  | some k => complete ((s.advance.setV x (keyByte k)).setLastKey none)

/-- Fx15, write DT (R103). -/
def execLdDtVx (x : Reg) (s : State) : Result := complete (s.advance.setDt (s.getV x))

/-- Fx18, write ST (R104). -/
def execLdStVx (x : Reg) (s : State) : Result := complete (s.advance.setSt (s.getV x))

end Sys2Proof.Machine
end

