-- ==== Sys2Proof/Machine/Step.lean ====
section
/-! DEFINITION. The step operation (30_encoding.md R50): one instruction cycle. -/

namespace Sys2Proof.Machine

/-- A step that is admitted and not halted: fetch, decode, then the instruction's meaning or the unknown word (R50 to R56). -/
def cycle (s : State) : Result :=
  orRaise s (fetch s) fun w =>
    match decode w with
    | .ok i => exec i s
    | .error _ => execUnknown w s

/-- `step()`: not admitted before a load (70_reset_and_hazards.md R126), the error again when halted (60_exceptions.md R108),
else one instruction cycle. -/
def step (s : State) : Host.Outcome State Fault Refusal :=
  match s.phase with
  | .empty => .refused .stepBeforeLoad
  | .loaded =>
    match s.status with
    | .halted e _ => stepHalted e s
    | .running => cycle s

/-- `s` with a word of the opcode table where `step` fetches next: the word at pc, the phase Loaded and the status Running,
which the fetch needs (log 12). -/
def State.withFetchWord (s : State) (nbits w : Nat) : State :=
  ((s.placeWordAtPc nbits w).setPhase .loaded).setStatus .running

end Sys2Proof.Machine
end

