-- ==== Sys2Proof/Machine/HostOps.lean ====
section
/-! DEFINITION. The host's other operations (60_exceptions.md R119): load, tick, set-key, clear-draw-flag, and sequences of
operations. Construction is `State.construct`; reads are the fields of State (10_state.md R31). -/

namespace Sys2Proof.Machine

/-- `load_program(bytes)` (70_reset_and_hazards.md R125, R126): admitted in phase Empty; an image of more than 3583 bytes
changes nothing but the result it returns. -/
def loadProgram (bytes : List Byte) (s : State) : Result :=
  match s.phase with
  | .loaded => .refused .secondLoad
  | .empty =>
    if maxProgramLen < bytes.length then .next (s.setLoadResult (.programTooLarge bytes.length))
    else .next (((s.writeBytes programBase bytes).setPhase .loaded).setLoadResult .ok)

/-- A timer's decrement, floored at 0 (60_exceptions.md R113). -/
def countDown (b : Byte) : Byte := if 0 < b.toNat then b - 1 else b

/-- `tick_timers()` (R113): admitted in every phase and status. -/
def tickTimers (s : State) : Result := .next ((s.setDt (countDown s.dt)).setSt (countDown s.st))

/-- The press recorded by set-key: only a key that goes from released to pressed (R116). -/
def State.recordPress (s : State) (k : KeyIdx) (pressed : Bool) : State :=
  if pressed && !s.key[k.val] then s.setLastKey (some k) else s

/-- `set_key(index, pressed)` (R116): admitted in every phase and status, for an index 0 to 15. -/
def setKey (index : Nat) (pressed : Bool) (s : State) : Result :=
  if h : index < 16 then .next ((s.recordPress ⟨index, h⟩ pressed).setKeyState ⟨index, h⟩ pressed)
  else .refused (.noSuchKey index)

/-- `clear_draw_flag()` (R117). -/
def clearDrawFlag (s : State) : Result := .next (s.setDrawFlag false)

/-- One operation of the host on a constructed block (R119). -/
inductive HostOp where
  | load (bytes : List Byte)
  | step
  | tick
  | setKey (index : Nat) (pressed : Bool)
  | clearDrawFlag
deriving DecidableEq, Repr

/-- The operation's effect. -/
def perform (op : HostOp) (s : State) : Result :=
  match op with
  | .load bytes => loadProgram bytes s
  | .step => step s
  | .tick => tickTimers s
  | .setKey index pressed => setKey index pressed s
  | .clearDrawFlag => clearDrawFlag s

/-- An execution of the block: the host's operations one after another (00_scope.md R12), up to the first that is refused. -/
def performAll : List HostOp → State → Result
  | [], s => .next s
  | op :: ops, s =>
    match perform op s with
    | .next t => performAll ops t
    | .fault r => .fault r
    | .refused r => .refused r

end Sys2Proof.Machine
end

