-- ==== Sys2Proof/WellFormed.lean ====
section
/-! DEFINITION. The checks the types of Syntax.lean and Config.lean do not make by themselves. -/

namespace Sys2Proof

/-- An instruction is well formed when its operands fit their fields (30_encoding.md R48, R49). Register numbers and
immediates have the fields' widths as their types; the one operand that is a count, the row count `n` of Dxyn, is 0 to 15. -/
def Instr.wellFormed : Instr → Bool
  | .drw _ _ n => decide (n < 16)
  | .cls | .ret | .jp _ | .call _ | .ldI _ | .jpV0 _ => true
  | .seImm _ _ | .sneImm _ _ | .ldImm _ _ | .addImm _ _ | .rnd _ _ => true
  | .seReg _ _ | .sneReg _ _ | .ldReg _ _ | .orReg _ _ | .andReg _ _ | .xorReg _ _ | .addReg _ _ | .subReg _ _
  | .shr _ _ | .subn _ _ | .shl _ _ => true
  | .skp _ | .sknp _ | .ldVxDt _ | .ldVxK _ | .ldDtVx _ | .ldStVx _ | .addI _ | .ldF _ | .ldB _ | .storeRegs _
  | .loadRegs _ => true

/-- The parameters are admissible: the stack holds at least 16 entries (00_scope.md R6, 10_state.md R19), and the font lies
in the reserved region 0x000 to 0x1FF, below the program (20_memory.md R41, 70_reset_and_hazards.md R123; log 19). -/
abbrev Config.WellFormed (c : Config) : Prop :=
  16 ≤ c.stackDepth ∧ c.fontBase + 80 ≤ 0x200

end Sys2Proof
end

