-- ==== Sys2Proof/Safety.lean ====
section
/-! DEFINITION. The terms claims are stated in: what a state consists of and what a step leaves alone, the invariant of the
block, and the end of a run. -/

namespace Sys2Proof.Machine

/-! ### Frames -/

/-- The parts of the state, down to one register, one byte of memory, one pixel. -/
inductive Part where
  | memByte (a : Nat)
  | reg (r : Reg)
  | iReg
  | pc
  | stackEntry (k : Nat)
  | sp
  | dt
  | st
  | pixel (row : Fin 32) (col : Fin 64)
  | key (k : KeyIdx)
  | lastKey
  | phase
  | drawFlag
  | status
  | cfg
  | draws
  | stepResult
  | loadResult
deriving DecidableEq, Repr

/-- Two states agree on a part; memory is compared by reading the byte. -/
def Part.same (p : Part) (s t : State) : Prop :=
  match p with
  | .memByte a => t.readByte a = s.readByte a
  | .reg r => t.getV r = s.getV r
  | .iReg => t.iReg = s.iReg
  | .pc => t.pc = s.pc
  | .stackEntry k => t.stack[k]? = s.stack[k]?
  | .sp => t.sp = s.sp
  | .dt => t.dt = s.dt
  | .st => t.st = s.st
  | .pixel row col => t.pixel row col = s.pixel row col
  | .key k => t.key[k.val] = s.key[k.val]
  | .lastKey => t.lastKey = s.lastKey
  | .phase => t.phase = s.phase
  | .drawFlag => t.drawFlag = s.drawFlag
  | .status => t.status = s.status
  | .cfg => t.cfg = s.cfg
  | .draws => t.draws = s.draws
  | .stepResult => t.stepResult = s.stepResult
  | .loadResult => t.loadResult = s.loadResult

/-- Every part outside the listed ones is as before. -/
def ChangesOnly (ps : List Part) (s t : State) : Prop := ∀ p : Part, p ∉ ps → p.same s t

/-- The bytes of memory from `a` on, `len` of them. -/
def memParts (a len : Nat) : List Part := (List.range len).map (fun k => .memByte (a + k))

/-- Every pixel of the framebuffer. -/
def pixelParts : List Part :=
  (List.finRange 32).flatMap fun row => (List.finRange 64).map fun col => .pixel row col

/-- V0 to Vx. -/
def regPartsUpTo (x : Reg) : List Part := ((List.finRange 16).filter (fun r => r ≤ x)).map .reg

/-- The step raised `e` (60_exceptions.md R107): the status records it with the instruction's address, the step returns it,
and nothing else changes. -/
def RaisedOnly (e : FatalError) (s t : State) : Prop :=
  t.status = .halted e s.pc ∧ t.stepResult = some ⟨.error e, false, none⟩ ∧ ChangesOnly [.status, .stepResult] s t

/-- The registers an instruction names as its destination (10_state.md R14, R15): VF as an implicit output is not among
them. -/
def destRegs : Instr → List Reg
  | .ldImm x _ | .addImm x _ | .rnd x _ | .ldVxDt x | .ldVxK x => [x]
  | .ldReg x _ | .orReg x _ | .andReg x _ | .xorReg x _ | .addReg x _ | .subReg x _ | .shr x _ | .subn x _
  | .shl x _ => [x]
  | .loadRegs x => (List.finRange 16).filter (fun r => r ≤ x)
  | .cls | .ret | .jp _ | .call _ | .seImm _ _ | .sneImm _ _ | .seReg _ _ | .sneReg _ _ | .ldI _ | .jpV0 _
  | .drw _ _ _ | .skp _ | .sknp _ | .ldDtVx _ | .ldStVx _ | .addI _ | .ldF _ | .ldB _ | .storeRegs _ => []

/-- Whether the instruction writes VF as an implicit output under the given policies (10_state.md R15). -/
def writesFlag (c : Config) : Instr → Bool
  | .addReg _ _ | .drw _ _ _ => true
  | .subReg _ _ | .subn _ _ => decide (c.subFlagPolicy = .notBorrow)
  | .shr _ _ | .shl _ _ => decide (c.shiftPolicy ≠ .inPlaceNoFlag)
  | .cls | .ret | .jp _ | .call _ | .seImm _ _ | .sneImm _ _ | .seReg _ _ | .sneReg _ _ | .ldI _ | .jpV0 _
  | .ldImm _ _ | .addImm _ _ | .ldReg _ _ | .orReg _ _ | .andReg _ _ | .xorReg _ _ | .rnd _ _
  | .skp _ | .sknp _ | .ldVxDt _ | .ldVxK _ | .ldDtVx _ | .ldStVx _ | .addI _ | .ldF _ | .ldB _ | .storeRegs _
  | .loadRegs _ => false

/-- Whether the instruction draws: 00E0 and Dxyn (10_state.md R23, R27). -/
def isDraw : Instr → Bool
  | .cls | .drw _ _ _ => true
  | _ => false

/-- Whether the instruction stores to memory: Fx33 and Fx55 (20_memory.md R33). -/
def isStore : Instr → Bool
  | .ldB _ | .storeRegs _ => true
  | _ => false

/-- Whether the instruction accesses memory at I (20_memory.md R33). -/
def accessesMemory : Instr → Bool
  | .drw _ _ _ | .ldB _ | .storeRegs _ | .loadRegs _ => true
  | _ => false

/-- Whether the instruction uses the call stack: 2nnn and 00EE (10_state.md R19). -/
def usesStack : Instr → Bool
  | .call _ | .ret => true
  | _ => false

/-- The instruction the next step of a running block executes, if its word is one (30_encoding.md R51, R53). -/
def nextInstr (s : State) : Option Instr :=
  match fetch s with
  | .error _ => none
  | .ok w =>
    match decode w with
    | .ok i => some i
    | .error _ => none

/-- The instruction's word is `w`, for the encoder and the decoder. -/
def EncodedAs (i : Instr) (w : Word) : Prop := encode i = w ∧ decode w = .ok i

/-! ### The invariant -/

/-- What a halted status records (10_state.md R28; 60_exceptions.md R105, R107): pc is still the faulting instruction's
address, the last step returned the error, and the recorded value is one the error can record. -/
def State.haltConsistent (s : State) : Prop :=
  match s.status with
  | .running => True
  | .halted e a =>
    a = s.pc ∧ s.stepResult = some ⟨.error e, false, none⟩ ∧
      match e with
      | .addressOutOfRange n => 0x1000 ≤ n ∧ n < 0x10000
      | .stackOverflow b => b = a ∧ s.sp = s.cfg.stackDepth
      | .stackUnderflow b => b = a ∧ s.sp = 0

/-- The invariant of the block: admissible parameters, memory in canonical form, a stack of STACK_DEPTH entries with SP in
range (10_state.md R19, R20), and a status that tells the truth. -/
def State.Inv (s : State) : Prop :=
  s.cfg.WellFormed ∧ Memory.wf s.cfg s.mem ∧ s.stack.length = s.cfg.stackDepth ∧ s.sp ≤ s.cfg.stackDepth ∧
    s.haltConsistent

/-! ### Runs -/

/-- `PastEnd(len)`: the host's termination condition for an image of `len` bytes (70_reset_and_hazards.md R131). -/
def pastEnd (len : Nat) (s : State) : Bool := decide (programBase + len ≤ s.pc.toNat)

/-- The pixels a sprite covers: some 1 bit of one of its `n` bytes at I is placed on the pixel (41_display.md R63 to R65). -/
def Covers (s : State) (x y : Reg) (n : Nat) (row : Fin 32) (col : Fin 64) : Prop :=
  ∃ r c : Nat, r < n ∧ c < 8 ∧ spriteBit (s.readByte (s.indexAddr + r)) c = true ∧
    placePixel s.cfg.edgePolicy (startRow (s.getV y) + r) (startColumn (s.getV x) + c) = some (row, col)

/-- A run of the host's operations that ends in a state. -/
def Reaches (ops : List HostOp) (s t : State) : Prop := performAll ops s = .next t

end Sys2Proof.Machine
end

