-- ==== Sys2Proof/Certificates/Slice0/Obligations.lean ====
section
/-! DEFINITION. What is claimed of the model, stated and not proved. Each docstring names the rules of spec/ it rests on and,
where a clause is the spec's own decision (D<n>, 92_eei_decisions.md) or the model's choice (log n), says so. The frames
(`ChangesOnly`) list the parts that may change; `stepResult` holds what step() returns (log 4). -/

open Sys2Proof Sys2Proof.Machine

/-! ### Encoding -/

/-- Decoding the word of a well-formed instruction gives the instruction back, with every operand at every value (30_encoding.md
R48, R53, R55). -/
def Obligations.DecodeOfEncodeIsTheInstruction : Prop :=
  ∀ i : Instr, i.wellFormed = true → decode (encode i) = .ok i

/-- Each word has one meaning: encoding what a word decodes to gives the word back, and what the decoder gives is well formed. -/
def Obligations.EncodeOfDecodeIsTheWord : Prop :=
  ∀ (w : Word) (i : Instr), decode w = .ok i → encode i = w ∧ i.wellFormed = true

/-- The decoder follows the opcode map: a word is a row's instruction exactly when `w & mask = match` (R55). The 0xE of 8xyE is
the spec's general knowledge (decision D16). -/
def Obligations.DecodeFollowsTheOpcodeMap : Prop :=
  ∀ (w : Word) (j : Instr), j.row.matches w = true ↔ ∃ i, decode w = .ok i ∧ i.row = j.row

/-- The words that are no instruction, family by family, as R57 lists them (strict decoding: decision D15). The rejection names
the word. -/
def Obligations.UnknownWordsByFamily : Prop :=
  ∀ w : Word, decode w = .error (.unknownInstruction w) ↔
    (fieldOp w = 0x0#4 ∧ w ≠ 0x00E0#16 ∧ w ≠ 0x00EE#16) ∨
    (fieldOp w = 0x5#4 ∧ fieldN w ≠ 0#4) ∨
    (fieldOp w = 0x8#4 ∧ fieldN w ∈ [0x8#4, 0x9#4, 0xA#4, 0xB#4, 0xC#4, 0xD#4, 0xF#4]) ∨
    (fieldOp w = 0x9#4 ∧ fieldN w ≠ 0#4) ∨
    (fieldOp w = 0xE#4 ∧ fieldNN w ∉ [0x9E#8, 0xA1#8]) ∨
    (fieldOp w = 0xF#4 ∧
      fieldNN w ∉ [0x07#8, 0x0A#8, 0x15#8, 0x18#8, 0x1E#8, 0x29#8, 0x33#8, 0x55#8, 0x65#8])

/-- Words written out from the spec's encodings decode to the instructions they stand for, one or more a family. -/
def Obligations.SampleWordsDecode : Prop :=
  decode 0b0000000011100000#16 = .ok .cls ∧ decode 0b1101000000010101#16 = .ok (.drw 0 1 5) ∧
  decode 0b0010001100000000#16 = .ok (.call 0x300#12) ∧ decode 0b1001000100100000#16 = .ok (.sneReg 1 2) ∧
  decode 0b1000001100001110#16 = .ok (.shl 3 0) ∧ decode 0b1100001100001111#16 = .ok (.rnd 3 0x0F#8) ∧
  decode 0b1111000000110011#16 = .ok (.ldB 0) ∧ decode 0b1111001001100101#16 = .ok (.loadRegs 2) ∧
  decode 0b1110010110011110#16 = .ok (.skp 5) ∧ decode 0b1111001000011000#16 = .ok (.ldStVx 2)

/-! ### The instruction cycle -/

/-- When the two bytes at pc decode to an instruction, a step of a loaded, running block is that instruction's meaning, nothing
around it: the advance of pc is part of the meaning (R50, R51, R52; log 11). -/
def Obligations.StepRunsTheDecodedInstruction : Prop :=
  ∀ (s : State) (i : Instr), s.phase = .loaded → s.status = .running → s.pc.toNat ≤ 0xFFE →
    decodeBytes [s.readByte s.pc.toNat, s.readByte (s.pc.toNat + 1)] = .ok (i, []) → step s = exec i s

/-- The fetch (R51): the byte at pc is bits 15:8 of the word and the next one bits 7:0; when pc or its successor lies outside
memory the step fails with AddressOutOfRange and changes nothing but the status. -/
def Obligations.FetchReadsTwoBytesOrFails : Prop :=
  ∀ s : State,
    (s.pc.toNat ≤ 0xFFE → fetch s = .ok (s.readByte s.pc.toNat ++ s.readByte (s.pc.toNat + 1))) ∧
    (s.phase = .loaded → s.status = .running → 0xFFE < s.pc.toNat →
      ∃ t, step s = .next t ∧
        RaisedOnly (.addressOutOfRange (if s.pc.toNat = 0xFFF then 0x1000 else s.pc.toNat)) s t)

/-- A word that is no instruction only advances pc by 2 and reports the diagnostic (R56; decision D15). -/
def Obligations.UnknownWordOnlyAdvances : Prop :=
  ∀ (s : State) (w : Word), s.phase = .loaded → s.status = .running → fetch s = .ok w →
    decode w = .error (.unknownInstruction w) →
    ∃ t, step s = .next t ∧ t.pc = s.pc + 2 ∧ t.stepResult = some ⟨.ok, false, some ⟨w, s.pc⟩⟩ ∧
      ChangesOnly [.pc, .stepResult] s t

/-- A step of a halted block changes nothing and returns the same error, wherever pc points (R108; decision D14). -/
def Obligations.HaltedStepReturnsTheError : Prop :=
  ∀ (s : State) (e : FatalError) (a : Word), s.phase = .loaded → s.status = .halted e a →
    ∃ t, step s = .next t ∧ t.stepResult = some ⟨.error e, false, none⟩ ∧ ChangesOnly [.stepResult] s t

/-- The host's duties: a step before a load, a second load and a key index above 15 have no move (decisions D35, D41; log 7). -/
def Obligations.HostDutiesAreRefused : Prop :=
  (∀ s : State, s.phase = .empty → step s = .refused .stepBeforeLoad) ∧
  (∀ (s : State) (bytes : List Byte), s.phase = .loaded → loadProgram bytes s = .refused .secondLoad) ∧
  (∀ (s : State) (k : Nat) (p : Bool), 16 ≤ k → setKey k p s = .refused (.noSuchKey k))

/-! ### Display -/

/-- 00E0 turns every pixel off and leaves VF and everything else alone; it sets the draw flag even on a clear screen (decision
D24). -/
def Obligations.ClsTurnsEveryPixelOff : Prop :=
  ∀ s : State, ∃ t, exec .cls s = .next t ∧ (∀ row col, t.pixel row col = false) ∧ t.drawFlag = true ∧
    t.pc = s.pc + 2 ∧ t.stepResult = some ⟨.ok, true, none⟩ ∧
    ChangesOnly (pixelParts ++ [.drawFlag, .pc, .stepResult]) s t

/-- Dxyn in range: exactly the covered pixels turn over, VF is 1 exactly when a covered pixel was on, and the draw flag is set.
The edge policy is the block's parameter (decision D21); bit order, n = 0 and the flag on an unchanged screen are D22 to D24. -/
def Obligations.DrwTurnsCoveredPixelsOver : Prop :=
  ∀ (x y : Reg) (n : Nat) (s : State), n < 16 → (n = 0 ∨ s.indexAddr + n ≤ 0x1000) →
    ∃ t, exec (.drw x y n) s = .next t ∧
      (∀ row col, (Covers s x y n row col → t.pixel row col = !s.pixel row col) ∧
        (¬ Covers s x y n row col → t.pixel row col = s.pixel row col)) ∧
      ((∃ row col, Covers s x y n row col ∧ s.pixel row col = true) → t.getV vf = 1) ∧
      ((¬ ∃ row col, Covers s x y n row col ∧ s.pixel row col = true) → t.getV vf = 0) ∧
      t.drawFlag = true ∧ t.pc = s.pc + 2 ∧ t.stepResult = some ⟨.ok, true, none⟩ ∧
      ChangesOnly (pixelParts ++ [.reg vf, .drawFlag, .pc, .stepResult]) s t

/-- With both coordinate registers other than VF, drawing the same sprite twice restores the framebuffer, and the second draw
collides exactly when the first turned some pixel ON. (R67 says: when it toggled some pixel; see the next statement; log 13.) -/
def Obligations.RepeatedDrawRestoresTheScreen : Prop :=
  ∀ (x y : Reg) (n : Nat) (s : State), x ≠ vf → y ≠ vf → n < 16 → (n = 0 ∨ s.indexAddr + n ≤ 0x1000) →
    ∃ t u, exec (.drw x y n) s = .next t ∧ exec (.drw x y n) t = .next u ∧
      (∀ row col, u.pixel row col = s.pixel row col) ∧
      (u.getV vf = 1 ↔ ∃ row col, Covers s x y n row col ∧ s.pixel row col = false)

/-- R67's own sentence about a repeated draw, taken literally: the second draw sets VF = 1 exactly when the first toggled a
pixel. It FAILS: a sprite whose only pixel was on before turns it off and then on, and the second draw sets VF = 0 by R66. -/
def Obligations.SecondDrawCollidesIffFirstToggled : Prop :=
  ∀ (x y : Reg) (n : Nat) (s t u : State), x ≠ vf → y ≠ vf → n < 16 → (n = 0 ∨ s.indexAddr + n ≤ 0x1000) →
    exec (.drw x y n) s = .next t → exec (.drw x y n) t = .next u →
    (u.getV vf = 1 ↔ ∃ row col, Covers s x y n row col)

/-- An indexed access beyond memory raises AddressOutOfRange with the first address beyond it and does nothing else: Dxyn with a
row, Fx33, Fx55, Fx65 (R35, R91; precision: decision D13). -/
def Obligations.IndexedAccessBeyondMemoryRaises : Prop :=
  ∀ (x y : Reg) (n : Nat) (s : State),
    (0 < n → 0x1000 < s.indexAddr + n → ∃ t, exec (.drw x y n) s = .next t ∧
      RaisedOnly (.addressOutOfRange (max s.indexAddr 0x1000)) s t) ∧
    (0x1000 < s.indexAddr + 3 → ∃ t, exec (.ldB x) s = .next t ∧
      RaisedOnly (.addressOutOfRange (max s.indexAddr 0x1000)) s t) ∧
    (0x1000 < s.indexAddr + x.val + 1 → ∃ t, exec (.storeRegs x) s = .next t ∧
      RaisedOnly (.addressOutOfRange (max s.indexAddr 0x1000)) s t) ∧
    (0x1000 < s.indexAddr + x.val + 1 → ∃ t, exec (.loadRegs x) s = .next t ∧
      RaisedOnly (.addressOutOfRange (max s.indexAddr 0x1000)) s t)

/-! ### Control transfer -/

/-- 00EE (R69): its one word, the underflow, and the pop; the next fetch fails when the popped address is beyond 0xFFE. The
entry at SP - 1 exists in every state that meets the block's invariant (R19, R20). -/
def Obligations.RetPopsTheCallStack : Prop :=
  (∀ w : Word, decode w = .ok .ret ↔ w = 0x00EE#16) ∧
  ∀ s : State,
    (s.sp = 0 → ∃ t, exec .ret s = .next t ∧ RaisedOnly (.stackUnderflow s.pc) s t) ∧
    (∀ w : Word, 0 < s.sp → s.stack[s.sp - 1]? = some w →
      ∃ t, exec .ret s = .next t ∧ t.sp = s.sp - 1 ∧ t.pc = w ∧ ((∃ e, fetch t = .error e) ↔ 0xFFE < w.toNat) ∧
        ChangesOnly [.sp, .pc, .stepResult] s t)

/-- 1nnn (R70): its word, the jump, and that the next fetch fails only for 0xFFF. -/
def Obligations.JpSetsPc : Prop :=
  ∀ (nnn : Addr) (s : State), EncodedAs (.jp nnn) (0x1000#16 ||| nnn.setWidth 16) ∧
    ∃ t, exec (.jp nnn) s = .next t ∧ t.pc.toNat = nnn.toNat ∧ ((∃ e, fetch t = .error e) ↔ nnn = 0xFFF#12) ∧
      ChangesOnly [.pc, .stepResult] s t

/-- 2nnn (R71): its word, the overflow when SP is STACK_DEPTH, and the push of the address after the call. The entry at SP
exists in every state that meets the block's invariant (R19, R20). -/
def Obligations.CallPushesTheReturnAddress : Prop :=
  ∀ (nnn : Addr) (s : State), EncodedAs (.call nnn) (0x2000#16 ||| nnn.setWidth 16) ∧
    (s.sp = s.cfg.stackDepth → ∃ t, exec (.call nnn) s = .next t ∧ RaisedOnly (.stackOverflow s.pc) s t) ∧
    (s.sp < s.cfg.stackDepth → s.sp < s.stack.length →
      ∃ t, exec (.call nnn) s = .next t ∧ t.stack[s.sp]? = some (s.pc + 2) ∧ t.sp = s.sp + 1 ∧
        t.pc.toNat = nnn.toNat ∧ ChangesOnly [.stackEntry s.sp, .sp, .pc, .stepResult] s t)

/-- A call followed by a return comes back to the address after the call with the stack as deep as before (the source's
property S4). -/
def Obligations.CallThenReturnComesBack : Prop :=
  ∀ (nnn : Addr) (s : State), s.Inv → s.sp < s.cfg.stackDepth →
    ∃ t u, exec (.call nnn) s = .next t ∧ exec .ret t = .next u ∧ u.pc = s.pc + 2 ∧
      ChangesOnly [.stackEntry s.sp, .pc, .stepResult] s u

/-- 3xnn and 4xnn (R72, R73): their words, and a skip of 2 when Vx equals, or differs from, nn. -/
def Obligations.SkipsOnImmediate : Prop :=
  ∀ (x : Reg) (nn : Byte) (s : State),
    EncodedAs (.seImm x nn) (0x3000#16 ||| BitVec.ofNat 16 x.val <<< 8 ||| nn.setWidth 16) ∧
    EncodedAs (.sneImm x nn) (0x4000#16 ||| BitVec.ofNat 16 x.val <<< 8 ||| nn.setWidth 16) ∧
    (∃ t, exec (.seImm x nn) s = .next t ∧ t.pc = (if s.getV x = nn then s.pc + 4 else s.pc + 2) ∧
      ChangesOnly [.pc, .stepResult] s t) ∧
    (∃ t, exec (.sneImm x nn) s = .next t ∧ t.pc = (if s.getV x = nn then s.pc + 2 else s.pc + 4) ∧
      ChangesOnly [.pc, .stepResult] s t)

/-- 5xy0 and 9xy0 (R74, R75): their words, that another low nibble is no instruction, and the skip. -/
def Obligations.SkipsOnRegisters : Prop :=
  ∀ (x y : Reg) (s : State),
    EncodedAs (.seReg x y) (0x5000#16 ||| BitVec.ofNat 16 x.val <<< 8 ||| BitVec.ofNat 16 y.val <<< 4) ∧
    EncodedAs (.sneReg x y) (0x9000#16 ||| BitVec.ofNat 16 x.val <<< 8 ||| BitVec.ofNat 16 y.val <<< 4) ∧
    (∀ w : Word, (fieldOp w = 0x5#4 ∨ fieldOp w = 0x9#4) → fieldN w ≠ 0#4 →
      decode w = .error (.unknownInstruction w)) ∧
    (∃ t, exec (.seReg x y) s = .next t ∧ t.pc = (if s.getV x = s.getV y then s.pc + 4 else s.pc + 2) ∧
      ChangesOnly [.pc, .stepResult] s t) ∧
    (∃ t, exec (.sneReg x y) s = .next t ∧ t.pc = (if s.getV x = s.getV y then s.pc + 2 else s.pc + 4) ∧
      ChangesOnly [.pc, .stepResult] s t)

/-- Bnnn: the sum is not masked to 12 bits (decision D10), and beyond 0xFFE the next fetch fails. -/
def Obligations.JpV0SetsPcToTheSum : Prop :=
  ∀ (nnn : Addr) (s : State), ∃ t, exec (.jpV0 nnn) s = .next t ∧ t.pc.toNat = nnn.toNat + (s.getV 0).toNat ∧
    ((∃ e, fetch t = .error e) ↔ 0xFFE < nnn.toNat + (s.getV 0).toNat) ∧ ChangesOnly [.pc, .stepResult] s t

/-! ### Register loads and the ALU -/

/-- 6xnn (R79): its word, and Vx is nn; VF changes only when x is F. -/
def Obligations.LdImmLoadsTheImmediate : Prop :=
  ∀ (x : Reg) (nn : Byte) (s : State),
    EncodedAs (.ldImm x nn) (0x6000#16 ||| BitVec.ofNat 16 x.val <<< 8 ||| nn.setWidth 16) ∧
    ∃ t, exec (.ldImm x nn) s = .next t ∧ t.getV x = nn ∧ t.pc = s.pc + 2 ∧
      ChangesOnly [.reg x, .pc, .stepResult] s t

/-- 7xnn (R80): its word, and the sum modulo 256 with no flag. -/
def Obligations.AddImmWrapsWithoutFlag : Prop :=
  ∀ (x : Reg) (nn : Byte) (s : State),
    EncodedAs (.addImm x nn) (0x7000#16 ||| BitVec.ofNat 16 x.val <<< 8 ||| nn.setWidth 16) ∧
    ∃ t, exec (.addImm x nn) s = .next t ∧ (t.getV x).toNat = ((s.getV x).toNat + nn.toNat) % 256 ∧
      t.pc = s.pc + 2 ∧ ChangesOnly [.reg x, .pc, .stepResult] s t

/-- 8xy0 (R81): its word, and Vx is Vy. -/
def Obligations.LdRegCopiesTheRegister : Prop :=
  ∀ (x y : Reg) (s : State),
    EncodedAs (.ldReg x y) (0x8000#16 ||| BitVec.ofNat 16 x.val <<< 8 ||| BitVec.ofNat 16 y.val <<< 4 ||| 0x0#16) ∧
    ∃ t, exec (.ldReg x y) s = .next t ∧ t.getV x = s.getV y ∧ t.pc = s.pc + 2 ∧
      ChangesOnly [.reg x, .pc, .stepResult] s t

/-- 8xy1, 8xy2, 8xy3: bit by bit or, and, exclusive or, and VF is not reset (decision D19). -/
def Obligations.LogicalOperationsKeepVf : Prop :=
  ∀ (x y : Reg) (s : State),
    (∃ t, exec (.orReg x y) s = .next t ∧
      (∀ k, (t.getV x).getLsbD k = ((s.getV x).getLsbD k || (s.getV y).getLsbD k)) ∧ t.pc = s.pc + 2 ∧
      ChangesOnly [.reg x, .pc, .stepResult] s t) ∧
    (∃ t, exec (.andReg x y) s = .next t ∧
      (∀ k, (t.getV x).getLsbD k = ((s.getV x).getLsbD k && (s.getV y).getLsbD k)) ∧ t.pc = s.pc + 2 ∧
      ChangesOnly [.reg x, .pc, .stepResult] s t) ∧
    (∃ t, exec (.xorReg x y) s = .next t ∧
      (∀ k, (t.getV x).getLsbD k = ((s.getV x).getLsbD k ^^ (s.getV y).getLsbD k)) ∧ t.pc = s.pc + 2 ∧
      ChangesOnly [.reg x, .pc, .stepResult] s t)

/-- 8xy4: Vx is the sum modulo 256, and VF, unless it is Vx, is 1 exactly when the sum exceeds 255. With x = F the sum stays
(decision D20). -/
def Obligations.AddRegSetsCarry : Prop :=
  ∀ (x y : Reg) (s : State), ∃ t, exec (.addReg x y) s = .next t ∧
    (t.getV x).toNat = ((s.getV x).toNat + (s.getV y).toNat) % 256 ∧
    (x ≠ vf → t.getV vf = if 255 < (s.getV x).toNat + (s.getV y).toNat then 1 else 0) ∧ t.pc = s.pc + 2 ∧
    ChangesOnly [.reg x, .reg vf, .pc, .stepResult] s t

/-- 8xy5 and 8xy7: the difference modulo 256; VF is kept under NoFlag, and under NotBorrow holds 1 exactly when there was no
borrow, written last (decision D17). -/
def Obligations.SubtractionsFollowTheFlagPolicy : Prop :=
  ∀ (x y : Reg) (s : State), ∃ t u, exec (.subReg x y) s = .next t ∧ exec (.subn x y) s = .next u ∧
    t.pc = s.pc + 2 ∧ u.pc = s.pc + 2 ∧
    (s.cfg.subFlagPolicy = .noFlag →
      (t.getV x).toNat = ((s.getV x).toNat + 256 - (s.getV y).toNat) % 256 ∧
      (u.getV x).toNat = ((s.getV y).toNat + 256 - (s.getV x).toNat) % 256 ∧
      ChangesOnly [.reg x, .pc, .stepResult] s t ∧ ChangesOnly [.reg x, .pc, .stepResult] s u) ∧
    (s.cfg.subFlagPolicy = .notBorrow →
      (x ≠ vf → (t.getV x).toNat = ((s.getV x).toNat + 256 - (s.getV y).toNat) % 256 ∧
        (u.getV x).toNat = ((s.getV y).toNat + 256 - (s.getV x).toNat) % 256) ∧
      (t.getV vf = if (s.getV y).toNat ≤ (s.getV x).toNat then 1 else 0) ∧
      (u.getV vf = if (s.getV x).toNat ≤ (s.getV y).toNat then 1 else 0) ∧
      ChangesOnly [.reg x, .reg vf, .pc, .stepResult] s t ∧ ChangesOnly [.reg x, .reg vf, .pc, .stepResult] s u)

/-- 8xy6 and 8xyE under the three shift policies: the source register, the result, and the bit shifted out, written last
(decision D18). -/
def Obligations.ShiftsFollowTheShiftPolicy : Prop :=
  ∀ (x y : Reg) (s : State), ∃ t u, exec (.shr x y) s = .next t ∧ exec (.shl x y) s = .next u ∧
    t.pc = s.pc + 2 ∧ u.pc = s.pc + 2 ∧
    (s.cfg.shiftPolicy = .inPlaceNoFlag →
      (t.getV x).toNat = (s.getV x).toNat / 2 ∧ (u.getV x).toNat = (s.getV x).toNat * 2 % 256 ∧
      ChangesOnly [.reg x, .pc, .stepResult] s t ∧ ChangesOnly [.reg x, .pc, .stepResult] s u) ∧
    (∀ z : Reg, (s.cfg.shiftPolicy = .inPlaceFlag ∧ z = x) ∨ (s.cfg.shiftPolicy = .fromVyFlag ∧ z = y) →
      (x ≠ vf → (t.getV x).toNat = (s.getV z).toNat / 2 ∧ (u.getV x).toNat = (s.getV z).toNat * 2 % 256) ∧
      (t.getV vf).toNat = (s.getV z).toNat % 2 ∧ (u.getV vf).toNat = (s.getV z).toNat / 128 ∧
      ChangesOnly [.reg x, .reg vf, .pc, .stepResult] s t ∧ ChangesOnly [.reg x, .reg vf, .pc, .stepResult] s u)

/-- Cxnn: Vx is the next byte of the oracle, whatever it is, and nn; the draw is used up (decision D28; log 3). -/
def Obligations.RndMasksAFreeByte : Prop :=
  ∀ (x : Reg) (nn : Byte) (s : State), ∃ t, exec (.rnd x nn) s = .next t ∧
    t.getV x = Config.rand s.draws &&& nn ∧ t.draws = s.draws + 1 ∧ t.pc = s.pc + 2 ∧
    ChangesOnly [.reg x, .draws, .pc, .stepResult] s t

/-! ### Index register and memory -/

/-- Annn (R92): its word, and I is nnn. -/
def Obligations.LdISetsTheIndex : Prop :=
  ∀ (nnn : Addr) (s : State), EncodedAs (.ldI nnn) (0xA000#16 ||| nnn.setWidth 16) ∧
    ∃ t, exec (.ldI nnn) s = .next t ∧ t.iReg.toNat = nnn.toNat ∧ t.pc = s.pc + 2 ∧
      ChangesOnly [.iReg, .pc, .stepResult] s t

/-- Fx1E: I + Vx modulo 2^16, no flag and no fault above 0xFFF (decision D11). -/
def Obligations.AddIWrapsWithoutFlag : Prop :=
  ∀ (x : Reg) (s : State), ∃ t, exec (.addI x) s = .next t ∧
    t.iReg.toNat = (s.iReg.toNat + (s.getV x).toNat) % 0x10000 ∧ t.pc = s.pc + 2 ∧
    ChangesOnly [.iReg, .pc, .stepResult] s t

/-- Fx29: I is the address of the glyph of Vx's low nibble, for admissible parameters (decision D8). -/
def Obligations.LdFPointsAtTheGlyph : Prop :=
  ∀ (x : Reg) (s : State), s.cfg.WellFormed → ∃ t, exec (.ldF x) s = .next t ∧
    t.iReg.toNat = s.cfg.fontBase + 5 * ((s.getV x).toNat % 16) ∧ t.pc = s.pc + 2 ∧
    ChangesOnly [.iReg, .pc, .stepResult] s t

/-- Fx33 (R95): its word, the three digits at I, I+1, I+2, every other byte kept, and the fault beyond memory with no byte
written. Memory in canonical form is part of the block's invariant. -/
def Obligations.LdBStoresTheDecimalDigits : Prop :=
  ∀ (x : Reg) (s : State), EncodedAs (.ldB x) (0xF033#16 ||| BitVec.ofNat 16 x.val <<< 8) ∧
    (0xFFF < s.indexAddr + 2 → ∃ t, exec (.ldB x) s = .next t ∧
      RaisedOnly (.addressOutOfRange (if 0xFFF < s.indexAddr then s.indexAddr else 0x1000)) s t) ∧
    (Memory.wf s.cfg s.mem → s.indexAddr + 2 ≤ 0xFFF → ∃ t, exec (.ldB x) s = .next t ∧
      (t.readByte s.indexAddr).toNat = (s.getV x).toNat / 100 ∧
      (t.readByte (s.indexAddr + 1)).toNat = (s.getV x).toNat / 10 % 10 ∧
      (t.readByte (s.indexAddr + 2)).toNat = (s.getV x).toNat % 10 ∧ t.pc = s.pc + 2 ∧
      ChangesOnly (memParts s.indexAddr 3 ++ [.pc, .stepResult]) s t)

/-- Fx55: V0 to Vx go to memory from I, every other byte is kept, and I is kept (decision D25). -/
def Obligations.StoreRegsCopiesToMemory : Prop :=
  ∀ (x : Reg) (s : State), Memory.wf s.cfg s.mem → s.indexAddr + x.val ≤ 0xFFF →
    ∃ t, exec (.storeRegs x) s = .next t ∧
      (∀ r : Reg, r ≤ x → t.readByte (s.indexAddr + r.val) = s.getV r) ∧ t.pc = s.pc + 2 ∧
      ChangesOnly (memParts s.indexAddr (x.val + 1) ++ [.pc, .stepResult]) s t

/-- Fx65: V0 to Vx come from memory at I, the other registers and I are kept (decision D25). -/
def Obligations.LoadRegsCopiesFromMemory : Prop :=
  ∀ (x : Reg) (s : State), s.indexAddr + x.val ≤ 0xFFF →
    ∃ t, exec (.loadRegs x) s = .next t ∧
      (∀ r : Reg, r ≤ x → t.getV r = s.readByte (s.indexAddr + r.val)) ∧ t.pc = s.pc + 2 ∧
      ChangesOnly (regPartsUpTo x ++ [.pc, .stepResult]) s t

/-- A store is seen by the very next fetch: with I at the instruction after Fx55, the next word fetched is V0 and V1 (20_memory.md
R45; decision D32). -/
def Obligations.StoredBytesAreFetchedNext : Prop :=
  ∀ (x : Reg) (s : State), Memory.wf s.cfg s.mem → 1 ≤ x → s.iReg = s.pc + 2 → s.indexAddr + x.val ≤ 0xFFF →
    ∃ t, exec (.storeRegs x) s = .next t ∧ fetch t = .ok (s.getV 0 ++ s.getV 1)

/-! ### Keys and timers -/

/-- Ex9E and ExA1: a skip of 2 when the key Vx names is, or is not, pressed; a value above 15 names no key and reads as not
pressed (decision D26). -/
def Obligations.SkipsOnKeys : Prop :=
  ∀ (x : Reg) (s : State),
    ∃ t u, exec (.skp x) s = .next t ∧ exec (.sknp x) s = .next u ∧
      (∀ k : KeyIdx, (s.getV x).toNat = k.val →
        (t.pc = if s.key[k.val] = true then s.pc + 4 else s.pc + 2) ∧
        (u.pc = if s.key[k.val] = true then s.pc + 2 else s.pc + 4)) ∧
      (16 ≤ (s.getV x).toNat → t.pc = s.pc + 2 ∧ u.pc = s.pc + 4) ∧
      ChangesOnly [.pc, .stepResult] s t ∧ ChangesOnly [.pc, .stepResult] s u

/-- Fx07, Fx15, Fx18 (R101, R103, R104): their words; Vx is DT, DT is Vx, ST is Vx, and nothing else changes. -/
def Obligations.TimerTransfers : Prop :=
  ∀ (x : Reg) (s : State),
    EncodedAs (.ldVxDt x) (0xF007#16 ||| BitVec.ofNat 16 x.val <<< 8) ∧
    EncodedAs (.ldDtVx x) (0xF015#16 ||| BitVec.ofNat 16 x.val <<< 8) ∧
    EncodedAs (.ldStVx x) (0xF018#16 ||| BitVec.ofNat 16 x.val <<< 8) ∧
    (∃ t, exec (.ldVxDt x) s = .next t ∧ t.getV x = s.dt ∧ t.pc = s.pc + 2 ∧
      ChangesOnly [.reg x, .pc, .stepResult] s t) ∧
    (∃ t, exec (.ldDtVx x) s = .next t ∧ t.dt = s.getV x ∧ t.pc = s.pc + 2 ∧
      ChangesOnly [.dt, .pc, .stepResult] s t) ∧
    (∃ t, exec (.ldStVx x) s = .next t ∧ t.st = s.getV x ∧ t.pc = s.pc + 2 ∧
      ChangesOnly [.st, .pc, .stepResult] s t)

/-- Fx0A: with no press recorded the step completes with pc back at the instruction; with one, Vx is the key and the press is
consumed (decision D27). -/
def Obligations.KeyWaitBlocksOrConsumes : Prop :=
  ∀ (x : Reg) (s : State),
    (s.lastKey = none → ∃ t, exec (.ldVxK x) s = .next t ∧ t.pc = s.pc ∧ ChangesOnly [.stepResult] s t) ∧
    (∀ k : KeyIdx, s.lastKey = some k → ∃ t, exec (.ldVxK x) s = .next t ∧ (t.getV x).toNat = k.val ∧
      t.lastKey = none ∧ t.pc = s.pc + 2 ∧ ChangesOnly [.reg x, .lastKey, .pc, .stepResult] s t)

/-! ### The host's operations -/

/-- A tick takes 1 from each timer, floored at 0, in every phase and status, and changes nothing else (R113; admission: decision
D36). -/
def Obligations.TickCountsDownToZero : Prop :=
  ∀ s : State, ∃ t, tickTimers s = .next t ∧ t.dt.toNat = s.dt.toNat - 1 ∧ t.st.toNat = s.st.toNat - 1 ∧
    ChangesOnly [.dt, .st] s t

/-- Set-key writes the key's state and records it as the last pressed exactly on a released-to-pressed transition (R116; decisions
D27, D42). -/
def Obligations.SetKeyRecordsPresses : Prop :=
  ∀ (k : KeyIdx) (p : Bool) (s : State), ∃ t, setKey k.val p s = .next t ∧ t.key[k.val] = p ∧
    t.lastKey = (if p = true ∧ s.key[k.val] = false then some k else s.lastKey) ∧ ChangesOnly [.key k, .lastKey] s t

/-- Clear-draw-flag clears the flag and nothing else (R117; admission: decision D24). -/
def Obligations.ClearDrawFlagClearsItOnly : Prop :=
  ∀ s : State, ∃ t, clearDrawFlag s = .next t ∧ t.drawFlag = false ∧ ChangesOnly [.drawFlag] s t

/-- Loading in phase Empty: up to 3583 bytes go to 0x200 on and the phase becomes Loaded; a longer image changes nothing but
the result (R125; decisions D39, D40; result: log 5). -/
def Obligations.LoadPlacesTheImage : Prop :=
  ∀ (bytes : List Byte) (s : State), Memory.wf s.cfg s.mem → s.phase = .empty →
    (bytes.length ≤ 3583 → ∃ t, loadProgram bytes s = .next t ∧
      (∀ k, k < bytes.length → t.readByte (0x200 + k) = bytes.getD k 0) ∧ t.phase = .loaded ∧
      t.loadResult = some .ok ∧ ChangesOnly (memParts 0x200 bytes.length ++ [.phase, .loadResult]) s t) ∧
    (3583 < bytes.length → ∃ t, loadProgram bytes s = .next t ∧
      t.loadResult = some (.programTooLarge bytes.length) ∧ ChangesOnly [.loadResult] s t)

/-- What construction leaves (R29): the values are the spec's decisions D2 to D7, D14 and D35 (log 10). -/
def Obligations.ConstructionLeavesTheResetValues : Prop :=
  ∀ c : Config,
    (∀ k : Fin 80, (State.construct c).readByte (c.fontBase + k.val) = c.font[k.val]) ∧
    (∀ a, ¬ (c.fontBase ≤ a ∧ a < c.fontBase + 80) → (State.construct c).readByte a = 0) ∧
    (∀ r, (State.construct c).getV r = 0) ∧ (State.construct c).iReg = 0 ∧ (State.construct c).pc = 0x200 ∧
    (∀ k, k < c.stackDepth → (State.construct c).stack[k]? = some 0) ∧ (State.construct c).sp = 0 ∧
    (State.construct c).dt = 0 ∧ (State.construct c).st = 0 ∧
    (∀ row col, (State.construct c).pixel row col = false) ∧ (∀ k : KeyIdx, (State.construct c).key[k.val] = false) ∧
    (State.construct c).lastKey = none ∧ (State.construct c).drawFlag = false ∧
    (State.construct c).phase = .empty ∧ (State.construct c).status = .running

/-! ### Rules of the whole machine -/

/-- Every step keeps the invariant: admissible parameters, canonical memory, a stack of STACK_DEPTH entries with SP in range, and
a halted status that records the faulting instruction's address, its error and a value the error can record. -/
def Obligations.StepKeepsInv : Prop :=
  ∀ s t : State, s.Inv → step s = .next t → t.Inv

/-- The invariant holds right after construction with admissible parameters, the defaults among them. -/
def Obligations.ConstructionMeetsInv : Prop :=
  State.reset.Inv ∧ ∀ c : Config, c.WellFormed → (State.construct c).Inv

/-- However the host interleaves loads, steps, ticks, key changes and flag clears, the invariant holds. -/
def Obligations.EveryHostSequenceKeepsInv : Prop :=
  ∀ (c : Config) (ops : List HostOp) (t : State), c.WellFormed → performAll ops (State.construct c) = .next t → t.Inv

/-- A loaded block that meets the invariant always has a next state: no step faults and none is refused. -/
def Obligations.LoadedStepNeverStops : Prop :=
  ∀ s : State, s.Inv → s.phase = .loaded → ∃ t, step s = .next t

/-- A step that halts a running block commits nothing: the state is the old one with the status and the returned error (R107;
decision D13). -/
def Obligations.FatalErrorCommitsNothing : Prop :=
  ∀ (s t : State) (e : FatalError) (a : Word), s.status = .running → step s = .next t → t.status = .halted e a →
    a = s.pc ∧ t = { s with status := .halted e s.pc, stepResult := some ⟨.error e, false, none⟩ }

/-- What a step returns (R54, R56; decision D24): it says Ok exactly when the block still runs, it says it drew exactly when the
instruction was 00E0 or Dxyn and completed, and a diagnostic exactly when the fetched word is no instruction. -/
def Obligations.StepResultTellsWhatHappened : Prop :=
  ∀ s t : State, s.status = .running → step s = .next t →
    ∃ r, t.stepResult = some r ∧ (r.outcome = .ok ↔ t.status = .running) ∧
      (r.didDraw = true ↔ t.status = .running ∧ ∃ i, nextInstr s = some i ∧ isDraw i = true) ∧
      (∀ d, r.diag = some d ↔
        fetch s = .ok d.word ∧ decode d.word = .error (.unknownInstruction d.word) ∧ d.address = s.pc)

/-- The framebuffer and the draw flag are changed by 00E0 and Dxyn only (10_state.md R23, R27). -/
def Obligations.OnlyDrawingChangesTheScreen : Prop :=
  ∀ s t : State, step s = .next t → (∀ i, nextInstr s = some i → isDraw i = false) →
    t.drawFlag = s.drawFlag ∧ ∀ row col, t.pixel row col = s.pixel row col

/-- Memory is changed by Fx33 and Fx55 only (20_memory.md R33). -/
def Obligations.OnlyStoresChangeMemory : Prop :=
  ∀ s t : State, step s = .next t → (∀ i, nextInstr s = some i → isStore i = false) →
    ∀ a, t.readByte a = s.readByte a

/-- The call stack is used by 2nnn and 00EE only (10_state.md R19): any other instruction neither changes it nor depends on it;
run with another stack, it does the same to the rest. -/
def Obligations.StackIsInvisibleToOthers : Prop :=
  ∀ (i : Instr) (s : State) (k : List Word) (n : Nat), usesStack i = false →
    ∃ t, exec i s = .next t ∧ t.stack = s.stack ∧ t.sp = s.sp ∧
      exec i { s with stack := k, sp := n } = .next { t with stack := k, sp := n }

/-- No step changes the keys, the phase, the parameters or the load's result; DT changes by Fx15, ST by Fx18 and last_key by Fx0A
only (10_state.md R21, R22, R24 to R26, R30). -/
def Obligations.StepLeavesTheHostsState : Prop :=
  ∀ s t : State, step s = .next t →
    t.key = s.key ∧ t.phase = s.phase ∧ t.cfg = s.cfg ∧ t.loadResult = s.loadResult ∧
    ((∀ x, nextInstr s ≠ some (.ldDtVx x)) → t.dt = s.dt) ∧
    ((∀ x, nextInstr s ≠ some (.ldStVx x)) → t.st = s.st) ∧
    ((∀ x, nextInstr s ≠ some (.ldVxK x)) → t.lastKey = s.lastKey)

/-- A register changes only when the instruction names it as a destination, or is VF and the instruction writes the flag under
the block's policies (10_state.md R14, R15; decisions D17, D18). -/
def Obligations.OnlyNamedRegistersChange : Prop :=
  ∀ (i : Instr) (s t : State) (r : Reg), exec i s = .next t → r ∉ destRegs i →
    (r = vf → writesFlag s.cfg i = false) → t.getV r = s.getV r

/-- I is changed by Annn, Fx1E and Fx29 only (10_state.md R17), so by no memory access (decision D25). -/
def Obligations.OnlyIndexInstructionsChangeI : Prop :=
  ∀ (i : Instr) (s t : State), exec i s = .next t → (∀ nnn, i ≠ .ldI nnn) → (∀ x, i ≠ .addI x) → (∀ x, i ≠ .ldF x) →
    t.iReg = s.iReg

/-- A jump to itself runs for ever and changes nothing (70_reset_and_hazards.md R131; decision D37): after any number of steps
only the step's result can differ. -/
def Obligations.SelfJumpRunsForEver : Prop :=
  ∀ (k : Nat) (s : State) (nnn : Addr), s.phase = .loaded → s.status = .running → nextInstr s = some (.jp nnn) →
    s.pc.toNat = nnn.toNat →
    ∃ t, Host.Core.run Sys2Proof.core k s = .next t ∧ ChangesOnly [.stepResult] s t

/-- Every operation of the host keeps the invariant, from every state that meets it and not only in runs from construction: a
load, a step, a tick, a key change, a flag clear (60_exceptions.md R119). -/
def Obligations.EveryHostOperationKeepsInv : Prop :=
  ∀ (s t : State) (op : HostOp), s.Inv → perform op s = .next t → t.Inv
end

