-- ==== Sys2Proof/Laws/State.lean ====
section
/-! SUPPORT. What each update of the state leaves in each field: one lemma per field and update, and per register, byte of
memory and pixel where the update cannot change one. -/

namespace Sys2Proof.Machine

variable (s : State)

/-! ### setV -/

@[simp] theorem State.setV_mem (r : Reg) (b : Byte) : (s.setV r b).mem = s.mem := rfl
@[simp] theorem State.setV_v (r : Reg) (b : Byte) : (s.setV r b).v = s.v.set r.val b := rfl
@[simp] theorem State.setV_iReg (r : Reg) (b : Byte) : (s.setV r b).iReg = s.iReg := rfl
@[simp] theorem State.setV_pc (r : Reg) (b : Byte) : (s.setV r b).pc = s.pc := rfl
@[simp] theorem State.setV_stack (r : Reg) (b : Byte) : (s.setV r b).stack = s.stack := rfl
@[simp] theorem State.setV_sp (r : Reg) (b : Byte) : (s.setV r b).sp = s.sp := rfl
@[simp] theorem State.setV_dt (r : Reg) (b : Byte) : (s.setV r b).dt = s.dt := rfl
@[simp] theorem State.setV_st (r : Reg) (b : Byte) : (s.setV r b).st = s.st := rfl
@[simp] theorem State.setV_fb (r : Reg) (b : Byte) : (s.setV r b).fb = s.fb := rfl
@[simp] theorem State.setV_key (r : Reg) (b : Byte) : (s.setV r b).key = s.key := rfl
@[simp] theorem State.setV_lastKey (r : Reg) (b : Byte) : (s.setV r b).lastKey = s.lastKey := rfl
@[simp] theorem State.setV_phase (r : Reg) (b : Byte) : (s.setV r b).phase = s.phase := rfl
@[simp] theorem State.setV_drawFlag (r : Reg) (b : Byte) : (s.setV r b).drawFlag = s.drawFlag := rfl
@[simp] theorem State.setV_status (r : Reg) (b : Byte) : (s.setV r b).status = s.status := rfl
@[simp] theorem State.setV_cfg (r : Reg) (b : Byte) : (s.setV r b).cfg = s.cfg := rfl
@[simp] theorem State.setV_draws (r : Reg) (b : Byte) : (s.setV r b).draws = s.draws := rfl
@[simp] theorem State.setV_stepResult (r : Reg) (b : Byte) : (s.setV r b).stepResult = s.stepResult := rfl
@[simp] theorem State.setV_loadResult (r : Reg) (b : Byte) : (s.setV r b).loadResult = s.loadResult := rfl
@[simp] theorem State.setV_readByte (r : Reg) (b : Byte) (a : Nat) : (s.setV r b).readByte a = s.readByte a := rfl
@[simp] theorem State.setV_pixel (r : Reg) (b : Byte) (row : Fin 32) (col : Fin 64) :
    (s.setV r b).pixel row col = s.pixel row col := rfl

/-! ### setI -/

@[simp] theorem State.setI_mem (w : Word) : (s.setI w).mem = s.mem := rfl
@[simp] theorem State.setI_v (w : Word) : (s.setI w).v = s.v := rfl
@[simp] theorem State.setI_iReg (w : Word) : (s.setI w).iReg = w := rfl
@[simp] theorem State.setI_pc (w : Word) : (s.setI w).pc = s.pc := rfl
@[simp] theorem State.setI_stack (w : Word) : (s.setI w).stack = s.stack := rfl
@[simp] theorem State.setI_sp (w : Word) : (s.setI w).sp = s.sp := rfl
@[simp] theorem State.setI_dt (w : Word) : (s.setI w).dt = s.dt := rfl
@[simp] theorem State.setI_st (w : Word) : (s.setI w).st = s.st := rfl
@[simp] theorem State.setI_fb (w : Word) : (s.setI w).fb = s.fb := rfl
@[simp] theorem State.setI_key (w : Word) : (s.setI w).key = s.key := rfl
@[simp] theorem State.setI_lastKey (w : Word) : (s.setI w).lastKey = s.lastKey := rfl
@[simp] theorem State.setI_phase (w : Word) : (s.setI w).phase = s.phase := rfl
@[simp] theorem State.setI_drawFlag (w : Word) : (s.setI w).drawFlag = s.drawFlag := rfl
@[simp] theorem State.setI_status (w : Word) : (s.setI w).status = s.status := rfl
@[simp] theorem State.setI_cfg (w : Word) : (s.setI w).cfg = s.cfg := rfl
@[simp] theorem State.setI_draws (w : Word) : (s.setI w).draws = s.draws := rfl
@[simp] theorem State.setI_stepResult (w : Word) : (s.setI w).stepResult = s.stepResult := rfl
@[simp] theorem State.setI_loadResult (w : Word) : (s.setI w).loadResult = s.loadResult := rfl
@[simp] theorem State.setI_getV (w : Word) (q : Reg) : (s.setI w).getV q = s.getV q := rfl
@[simp] theorem State.setI_readByte (w : Word) (a : Nat) : (s.setI w).readByte a = s.readByte a := rfl
@[simp] theorem State.setI_pixel (w : Word) (row : Fin 32) (col : Fin 64) :
    (s.setI w).pixel row col = s.pixel row col := rfl

/-! ### setPc -/

@[simp] theorem State.setPc_mem (w : Word) : (s.setPc w).mem = s.mem := rfl
@[simp] theorem State.setPc_v (w : Word) : (s.setPc w).v = s.v := rfl
@[simp] theorem State.setPc_iReg (w : Word) : (s.setPc w).iReg = s.iReg := rfl
@[simp] theorem State.setPc_pc (w : Word) : (s.setPc w).pc = w := rfl
@[simp] theorem State.setPc_stack (w : Word) : (s.setPc w).stack = s.stack := rfl
@[simp] theorem State.setPc_sp (w : Word) : (s.setPc w).sp = s.sp := rfl
@[simp] theorem State.setPc_dt (w : Word) : (s.setPc w).dt = s.dt := rfl
@[simp] theorem State.setPc_st (w : Word) : (s.setPc w).st = s.st := rfl
@[simp] theorem State.setPc_fb (w : Word) : (s.setPc w).fb = s.fb := rfl
@[simp] theorem State.setPc_key (w : Word) : (s.setPc w).key = s.key := rfl
@[simp] theorem State.setPc_lastKey (w : Word) : (s.setPc w).lastKey = s.lastKey := rfl
@[simp] theorem State.setPc_phase (w : Word) : (s.setPc w).phase = s.phase := rfl
@[simp] theorem State.setPc_drawFlag (w : Word) : (s.setPc w).drawFlag = s.drawFlag := rfl
@[simp] theorem State.setPc_status (w : Word) : (s.setPc w).status = s.status := rfl
@[simp] theorem State.setPc_cfg (w : Word) : (s.setPc w).cfg = s.cfg := rfl
@[simp] theorem State.setPc_draws (w : Word) : (s.setPc w).draws = s.draws := rfl
@[simp] theorem State.setPc_stepResult (w : Word) : (s.setPc w).stepResult = s.stepResult := rfl
@[simp] theorem State.setPc_loadResult (w : Word) : (s.setPc w).loadResult = s.loadResult := rfl
@[simp] theorem State.setPc_getV (w : Word) (q : Reg) : (s.setPc w).getV q = s.getV q := rfl
@[simp] theorem State.setPc_readByte (w : Word) (a : Nat) : (s.setPc w).readByte a = s.readByte a := rfl
@[simp] theorem State.setPc_pixel (w : Word) (row : Fin 32) (col : Fin 64) :
    (s.setPc w).pixel row col = s.pixel row col := rfl

/-! ### setStackEntry -/

@[simp] theorem State.setStackEntry_mem (k : Nat) (w : Word) : (s.setStackEntry k w).mem = s.mem := rfl
@[simp] theorem State.setStackEntry_v (k : Nat) (w : Word) : (s.setStackEntry k w).v = s.v := rfl
@[simp] theorem State.setStackEntry_iReg (k : Nat) (w : Word) : (s.setStackEntry k w).iReg = s.iReg := rfl
@[simp] theorem State.setStackEntry_pc (k : Nat) (w : Word) : (s.setStackEntry k w).pc = s.pc := rfl
@[simp] theorem State.setStackEntry_stack (k : Nat) (w : Word) : (s.setStackEntry k w).stack = s.stack.set k w := rfl
@[simp] theorem State.setStackEntry_sp (k : Nat) (w : Word) : (s.setStackEntry k w).sp = s.sp := rfl
@[simp] theorem State.setStackEntry_dt (k : Nat) (w : Word) : (s.setStackEntry k w).dt = s.dt := rfl
@[simp] theorem State.setStackEntry_st (k : Nat) (w : Word) : (s.setStackEntry k w).st = s.st := rfl
@[simp] theorem State.setStackEntry_fb (k : Nat) (w : Word) : (s.setStackEntry k w).fb = s.fb := rfl
@[simp] theorem State.setStackEntry_key (k : Nat) (w : Word) : (s.setStackEntry k w).key = s.key := rfl
@[simp] theorem State.setStackEntry_lastKey (k : Nat) (w : Word) : (s.setStackEntry k w).lastKey = s.lastKey := rfl
@[simp] theorem State.setStackEntry_phase (k : Nat) (w : Word) : (s.setStackEntry k w).phase = s.phase := rfl
@[simp] theorem State.setStackEntry_drawFlag (k : Nat) (w : Word) : (s.setStackEntry k w).drawFlag = s.drawFlag := rfl
@[simp] theorem State.setStackEntry_status (k : Nat) (w : Word) : (s.setStackEntry k w).status = s.status := rfl
@[simp] theorem State.setStackEntry_cfg (k : Nat) (w : Word) : (s.setStackEntry k w).cfg = s.cfg := rfl
@[simp] theorem State.setStackEntry_draws (k : Nat) (w : Word) : (s.setStackEntry k w).draws = s.draws := rfl
@[simp] theorem State.setStackEntry_stepResult (k : Nat) (w : Word) : (s.setStackEntry k w).stepResult = s.stepResult := rfl
@[simp] theorem State.setStackEntry_loadResult (k : Nat) (w : Word) : (s.setStackEntry k w).loadResult = s.loadResult := rfl
@[simp] theorem State.setStackEntry_getV (k : Nat) (w : Word) (q : Reg) : (s.setStackEntry k w).getV q = s.getV q := rfl
@[simp] theorem State.setStackEntry_readByte (k : Nat) (w : Word) (a : Nat) : (s.setStackEntry k w).readByte a = s.readByte a := rfl
@[simp] theorem State.setStackEntry_pixel (k : Nat) (w : Word) (row : Fin 32) (col : Fin 64) :
    (s.setStackEntry k w).pixel row col = s.pixel row col := rfl

/-! ### setSp -/

@[simp] theorem State.setSp_mem (n : Nat) : (s.setSp n).mem = s.mem := rfl
@[simp] theorem State.setSp_v (n : Nat) : (s.setSp n).v = s.v := rfl
@[simp] theorem State.setSp_iReg (n : Nat) : (s.setSp n).iReg = s.iReg := rfl
@[simp] theorem State.setSp_pc (n : Nat) : (s.setSp n).pc = s.pc := rfl
@[simp] theorem State.setSp_stack (n : Nat) : (s.setSp n).stack = s.stack := rfl
@[simp] theorem State.setSp_sp (n : Nat) : (s.setSp n).sp = n := rfl
@[simp] theorem State.setSp_dt (n : Nat) : (s.setSp n).dt = s.dt := rfl
@[simp] theorem State.setSp_st (n : Nat) : (s.setSp n).st = s.st := rfl
@[simp] theorem State.setSp_fb (n : Nat) : (s.setSp n).fb = s.fb := rfl
@[simp] theorem State.setSp_key (n : Nat) : (s.setSp n).key = s.key := rfl
@[simp] theorem State.setSp_lastKey (n : Nat) : (s.setSp n).lastKey = s.lastKey := rfl
@[simp] theorem State.setSp_phase (n : Nat) : (s.setSp n).phase = s.phase := rfl
@[simp] theorem State.setSp_drawFlag (n : Nat) : (s.setSp n).drawFlag = s.drawFlag := rfl
@[simp] theorem State.setSp_status (n : Nat) : (s.setSp n).status = s.status := rfl
@[simp] theorem State.setSp_cfg (n : Nat) : (s.setSp n).cfg = s.cfg := rfl
@[simp] theorem State.setSp_draws (n : Nat) : (s.setSp n).draws = s.draws := rfl
@[simp] theorem State.setSp_stepResult (n : Nat) : (s.setSp n).stepResult = s.stepResult := rfl
@[simp] theorem State.setSp_loadResult (n : Nat) : (s.setSp n).loadResult = s.loadResult := rfl
@[simp] theorem State.setSp_getV (n : Nat) (q : Reg) : (s.setSp n).getV q = s.getV q := rfl
@[simp] theorem State.setSp_readByte (n : Nat) (a : Nat) : (s.setSp n).readByte a = s.readByte a := rfl
@[simp] theorem State.setSp_pixel (n : Nat) (row : Fin 32) (col : Fin 64) :
    (s.setSp n).pixel row col = s.pixel row col := rfl

/-! ### setDt -/

@[simp] theorem State.setDt_mem (b : Byte) : (s.setDt b).mem = s.mem := rfl
@[simp] theorem State.setDt_v (b : Byte) : (s.setDt b).v = s.v := rfl
@[simp] theorem State.setDt_iReg (b : Byte) : (s.setDt b).iReg = s.iReg := rfl
@[simp] theorem State.setDt_pc (b : Byte) : (s.setDt b).pc = s.pc := rfl
@[simp] theorem State.setDt_stack (b : Byte) : (s.setDt b).stack = s.stack := rfl
@[simp] theorem State.setDt_sp (b : Byte) : (s.setDt b).sp = s.sp := rfl
@[simp] theorem State.setDt_dt (b : Byte) : (s.setDt b).dt = b := rfl
@[simp] theorem State.setDt_st (b : Byte) : (s.setDt b).st = s.st := rfl
@[simp] theorem State.setDt_fb (b : Byte) : (s.setDt b).fb = s.fb := rfl
@[simp] theorem State.setDt_key (b : Byte) : (s.setDt b).key = s.key := rfl
@[simp] theorem State.setDt_lastKey (b : Byte) : (s.setDt b).lastKey = s.lastKey := rfl
@[simp] theorem State.setDt_phase (b : Byte) : (s.setDt b).phase = s.phase := rfl
@[simp] theorem State.setDt_drawFlag (b : Byte) : (s.setDt b).drawFlag = s.drawFlag := rfl
@[simp] theorem State.setDt_status (b : Byte) : (s.setDt b).status = s.status := rfl
@[simp] theorem State.setDt_cfg (b : Byte) : (s.setDt b).cfg = s.cfg := rfl
@[simp] theorem State.setDt_draws (b : Byte) : (s.setDt b).draws = s.draws := rfl
@[simp] theorem State.setDt_stepResult (b : Byte) : (s.setDt b).stepResult = s.stepResult := rfl
@[simp] theorem State.setDt_loadResult (b : Byte) : (s.setDt b).loadResult = s.loadResult := rfl
@[simp] theorem State.setDt_getV (b : Byte) (q : Reg) : (s.setDt b).getV q = s.getV q := rfl
@[simp] theorem State.setDt_readByte (b : Byte) (a : Nat) : (s.setDt b).readByte a = s.readByte a := rfl
@[simp] theorem State.setDt_pixel (b : Byte) (row : Fin 32) (col : Fin 64) :
    (s.setDt b).pixel row col = s.pixel row col := rfl

/-! ### setSt -/

@[simp] theorem State.setSt_mem (b : Byte) : (s.setSt b).mem = s.mem := rfl
@[simp] theorem State.setSt_v (b : Byte) : (s.setSt b).v = s.v := rfl
@[simp] theorem State.setSt_iReg (b : Byte) : (s.setSt b).iReg = s.iReg := rfl
@[simp] theorem State.setSt_pc (b : Byte) : (s.setSt b).pc = s.pc := rfl
@[simp] theorem State.setSt_stack (b : Byte) : (s.setSt b).stack = s.stack := rfl
@[simp] theorem State.setSt_sp (b : Byte) : (s.setSt b).sp = s.sp := rfl
@[simp] theorem State.setSt_dt (b : Byte) : (s.setSt b).dt = s.dt := rfl
@[simp] theorem State.setSt_st (b : Byte) : (s.setSt b).st = b := rfl
@[simp] theorem State.setSt_fb (b : Byte) : (s.setSt b).fb = s.fb := rfl
@[simp] theorem State.setSt_key (b : Byte) : (s.setSt b).key = s.key := rfl
@[simp] theorem State.setSt_lastKey (b : Byte) : (s.setSt b).lastKey = s.lastKey := rfl
@[simp] theorem State.setSt_phase (b : Byte) : (s.setSt b).phase = s.phase := rfl
@[simp] theorem State.setSt_drawFlag (b : Byte) : (s.setSt b).drawFlag = s.drawFlag := rfl
@[simp] theorem State.setSt_status (b : Byte) : (s.setSt b).status = s.status := rfl
@[simp] theorem State.setSt_cfg (b : Byte) : (s.setSt b).cfg = s.cfg := rfl
@[simp] theorem State.setSt_draws (b : Byte) : (s.setSt b).draws = s.draws := rfl
@[simp] theorem State.setSt_stepResult (b : Byte) : (s.setSt b).stepResult = s.stepResult := rfl
@[simp] theorem State.setSt_loadResult (b : Byte) : (s.setSt b).loadResult = s.loadResult := rfl
@[simp] theorem State.setSt_getV (b : Byte) (q : Reg) : (s.setSt b).getV q = s.getV q := rfl
@[simp] theorem State.setSt_readByte (b : Byte) (a : Nat) : (s.setSt b).readByte a = s.readByte a := rfl
@[simp] theorem State.setSt_pixel (b : Byte) (row : Fin 32) (col : Fin 64) :
    (s.setSt b).pixel row col = s.pixel row col := rfl

/-! ### setFb -/

@[simp] theorem State.setFb_mem (f : Framebuffer) : (s.setFb f).mem = s.mem := rfl
@[simp] theorem State.setFb_v (f : Framebuffer) : (s.setFb f).v = s.v := rfl
@[simp] theorem State.setFb_iReg (f : Framebuffer) : (s.setFb f).iReg = s.iReg := rfl
@[simp] theorem State.setFb_pc (f : Framebuffer) : (s.setFb f).pc = s.pc := rfl
@[simp] theorem State.setFb_stack (f : Framebuffer) : (s.setFb f).stack = s.stack := rfl
@[simp] theorem State.setFb_sp (f : Framebuffer) : (s.setFb f).sp = s.sp := rfl
@[simp] theorem State.setFb_dt (f : Framebuffer) : (s.setFb f).dt = s.dt := rfl
@[simp] theorem State.setFb_st (f : Framebuffer) : (s.setFb f).st = s.st := rfl
@[simp] theorem State.setFb_fb (f : Framebuffer) : (s.setFb f).fb = f := rfl
@[simp] theorem State.setFb_key (f : Framebuffer) : (s.setFb f).key = s.key := rfl
@[simp] theorem State.setFb_lastKey (f : Framebuffer) : (s.setFb f).lastKey = s.lastKey := rfl
@[simp] theorem State.setFb_phase (f : Framebuffer) : (s.setFb f).phase = s.phase := rfl
@[simp] theorem State.setFb_drawFlag (f : Framebuffer) : (s.setFb f).drawFlag = s.drawFlag := rfl
@[simp] theorem State.setFb_status (f : Framebuffer) : (s.setFb f).status = s.status := rfl
@[simp] theorem State.setFb_cfg (f : Framebuffer) : (s.setFb f).cfg = s.cfg := rfl
@[simp] theorem State.setFb_draws (f : Framebuffer) : (s.setFb f).draws = s.draws := rfl
@[simp] theorem State.setFb_stepResult (f : Framebuffer) : (s.setFb f).stepResult = s.stepResult := rfl
@[simp] theorem State.setFb_loadResult (f : Framebuffer) : (s.setFb f).loadResult = s.loadResult := rfl
@[simp] theorem State.setFb_getV (f : Framebuffer) (q : Reg) : (s.setFb f).getV q = s.getV q := rfl
@[simp] theorem State.setFb_readByte (f : Framebuffer) (a : Nat) : (s.setFb f).readByte a = s.readByte a := rfl

/-! ### setKeyState -/

@[simp] theorem State.setKeyState_mem (k : KeyIdx) (p : Bool) : (s.setKeyState k p).mem = s.mem := rfl
@[simp] theorem State.setKeyState_v (k : KeyIdx) (p : Bool) : (s.setKeyState k p).v = s.v := rfl
@[simp] theorem State.setKeyState_iReg (k : KeyIdx) (p : Bool) : (s.setKeyState k p).iReg = s.iReg := rfl
@[simp] theorem State.setKeyState_pc (k : KeyIdx) (p : Bool) : (s.setKeyState k p).pc = s.pc := rfl
@[simp] theorem State.setKeyState_stack (k : KeyIdx) (p : Bool) : (s.setKeyState k p).stack = s.stack := rfl
@[simp] theorem State.setKeyState_sp (k : KeyIdx) (p : Bool) : (s.setKeyState k p).sp = s.sp := rfl
@[simp] theorem State.setKeyState_dt (k : KeyIdx) (p : Bool) : (s.setKeyState k p).dt = s.dt := rfl
@[simp] theorem State.setKeyState_st (k : KeyIdx) (p : Bool) : (s.setKeyState k p).st = s.st := rfl
@[simp] theorem State.setKeyState_fb (k : KeyIdx) (p : Bool) : (s.setKeyState k p).fb = s.fb := rfl
@[simp] theorem State.setKeyState_key (k : KeyIdx) (p : Bool) : (s.setKeyState k p).key = s.key.set k.val p := rfl
@[simp] theorem State.setKeyState_lastKey (k : KeyIdx) (p : Bool) : (s.setKeyState k p).lastKey = s.lastKey := rfl
@[simp] theorem State.setKeyState_phase (k : KeyIdx) (p : Bool) : (s.setKeyState k p).phase = s.phase := rfl
@[simp] theorem State.setKeyState_drawFlag (k : KeyIdx) (p : Bool) : (s.setKeyState k p).drawFlag = s.drawFlag := rfl
@[simp] theorem State.setKeyState_status (k : KeyIdx) (p : Bool) : (s.setKeyState k p).status = s.status := rfl
@[simp] theorem State.setKeyState_cfg (k : KeyIdx) (p : Bool) : (s.setKeyState k p).cfg = s.cfg := rfl
@[simp] theorem State.setKeyState_draws (k : KeyIdx) (p : Bool) : (s.setKeyState k p).draws = s.draws := rfl
@[simp] theorem State.setKeyState_stepResult (k : KeyIdx) (p : Bool) : (s.setKeyState k p).stepResult = s.stepResult := rfl
@[simp] theorem State.setKeyState_loadResult (k : KeyIdx) (p : Bool) : (s.setKeyState k p).loadResult = s.loadResult := rfl
@[simp] theorem State.setKeyState_getV (k : KeyIdx) (p : Bool) (q : Reg) : (s.setKeyState k p).getV q = s.getV q := rfl
@[simp] theorem State.setKeyState_readByte (k : KeyIdx) (p : Bool) (a : Nat) : (s.setKeyState k p).readByte a = s.readByte a := rfl
@[simp] theorem State.setKeyState_pixel (k : KeyIdx) (p : Bool) (row : Fin 32) (col : Fin 64) :
    (s.setKeyState k p).pixel row col = s.pixel row col := rfl

/-! ### setLastKey -/

@[simp] theorem State.setLastKey_mem (k : Option KeyIdx) : (s.setLastKey k).mem = s.mem := rfl
@[simp] theorem State.setLastKey_v (k : Option KeyIdx) : (s.setLastKey k).v = s.v := rfl
@[simp] theorem State.setLastKey_iReg (k : Option KeyIdx) : (s.setLastKey k).iReg = s.iReg := rfl
@[simp] theorem State.setLastKey_pc (k : Option KeyIdx) : (s.setLastKey k).pc = s.pc := rfl
@[simp] theorem State.setLastKey_stack (k : Option KeyIdx) : (s.setLastKey k).stack = s.stack := rfl
@[simp] theorem State.setLastKey_sp (k : Option KeyIdx) : (s.setLastKey k).sp = s.sp := rfl
@[simp] theorem State.setLastKey_dt (k : Option KeyIdx) : (s.setLastKey k).dt = s.dt := rfl
@[simp] theorem State.setLastKey_st (k : Option KeyIdx) : (s.setLastKey k).st = s.st := rfl
@[simp] theorem State.setLastKey_fb (k : Option KeyIdx) : (s.setLastKey k).fb = s.fb := rfl
@[simp] theorem State.setLastKey_key (k : Option KeyIdx) : (s.setLastKey k).key = s.key := rfl
@[simp] theorem State.setLastKey_lastKey (k : Option KeyIdx) : (s.setLastKey k).lastKey = k := rfl
@[simp] theorem State.setLastKey_phase (k : Option KeyIdx) : (s.setLastKey k).phase = s.phase := rfl
@[simp] theorem State.setLastKey_drawFlag (k : Option KeyIdx) : (s.setLastKey k).drawFlag = s.drawFlag := rfl
@[simp] theorem State.setLastKey_status (k : Option KeyIdx) : (s.setLastKey k).status = s.status := rfl
@[simp] theorem State.setLastKey_cfg (k : Option KeyIdx) : (s.setLastKey k).cfg = s.cfg := rfl
@[simp] theorem State.setLastKey_draws (k : Option KeyIdx) : (s.setLastKey k).draws = s.draws := rfl
@[simp] theorem State.setLastKey_stepResult (k : Option KeyIdx) : (s.setLastKey k).stepResult = s.stepResult := rfl
@[simp] theorem State.setLastKey_loadResult (k : Option KeyIdx) : (s.setLastKey k).loadResult = s.loadResult := rfl
@[simp] theorem State.setLastKey_getV (k : Option KeyIdx) (q : Reg) : (s.setLastKey k).getV q = s.getV q := rfl
@[simp] theorem State.setLastKey_readByte (k : Option KeyIdx) (a : Nat) : (s.setLastKey k).readByte a = s.readByte a := rfl
@[simp] theorem State.setLastKey_pixel (k : Option KeyIdx) (row : Fin 32) (col : Fin 64) :
    (s.setLastKey k).pixel row col = s.pixel row col := rfl

/-! ### setPhase -/

@[simp] theorem State.setPhase_mem (p : Phase) : (s.setPhase p).mem = s.mem := rfl
@[simp] theorem State.setPhase_v (p : Phase) : (s.setPhase p).v = s.v := rfl
@[simp] theorem State.setPhase_iReg (p : Phase) : (s.setPhase p).iReg = s.iReg := rfl
@[simp] theorem State.setPhase_pc (p : Phase) : (s.setPhase p).pc = s.pc := rfl
@[simp] theorem State.setPhase_stack (p : Phase) : (s.setPhase p).stack = s.stack := rfl
@[simp] theorem State.setPhase_sp (p : Phase) : (s.setPhase p).sp = s.sp := rfl
@[simp] theorem State.setPhase_dt (p : Phase) : (s.setPhase p).dt = s.dt := rfl
@[simp] theorem State.setPhase_st (p : Phase) : (s.setPhase p).st = s.st := rfl
@[simp] theorem State.setPhase_fb (p : Phase) : (s.setPhase p).fb = s.fb := rfl
@[simp] theorem State.setPhase_key (p : Phase) : (s.setPhase p).key = s.key := rfl
@[simp] theorem State.setPhase_lastKey (p : Phase) : (s.setPhase p).lastKey = s.lastKey := rfl
@[simp] theorem State.setPhase_phase (p : Phase) : (s.setPhase p).phase = p := rfl
@[simp] theorem State.setPhase_drawFlag (p : Phase) : (s.setPhase p).drawFlag = s.drawFlag := rfl
@[simp] theorem State.setPhase_status (p : Phase) : (s.setPhase p).status = s.status := rfl
@[simp] theorem State.setPhase_cfg (p : Phase) : (s.setPhase p).cfg = s.cfg := rfl
@[simp] theorem State.setPhase_draws (p : Phase) : (s.setPhase p).draws = s.draws := rfl
@[simp] theorem State.setPhase_stepResult (p : Phase) : (s.setPhase p).stepResult = s.stepResult := rfl
@[simp] theorem State.setPhase_loadResult (p : Phase) : (s.setPhase p).loadResult = s.loadResult := rfl
@[simp] theorem State.setPhase_getV (p : Phase) (q : Reg) : (s.setPhase p).getV q = s.getV q := rfl
@[simp] theorem State.setPhase_readByte (p : Phase) (a : Nat) : (s.setPhase p).readByte a = s.readByte a := rfl
@[simp] theorem State.setPhase_pixel (p : Phase) (row : Fin 32) (col : Fin 64) :
    (s.setPhase p).pixel row col = s.pixel row col := rfl

/-! ### setDrawFlag -/

@[simp] theorem State.setDrawFlag_mem (b : Bool) : (s.setDrawFlag b).mem = s.mem := rfl
@[simp] theorem State.setDrawFlag_v (b : Bool) : (s.setDrawFlag b).v = s.v := rfl
@[simp] theorem State.setDrawFlag_iReg (b : Bool) : (s.setDrawFlag b).iReg = s.iReg := rfl
@[simp] theorem State.setDrawFlag_pc (b : Bool) : (s.setDrawFlag b).pc = s.pc := rfl
@[simp] theorem State.setDrawFlag_stack (b : Bool) : (s.setDrawFlag b).stack = s.stack := rfl
@[simp] theorem State.setDrawFlag_sp (b : Bool) : (s.setDrawFlag b).sp = s.sp := rfl
@[simp] theorem State.setDrawFlag_dt (b : Bool) : (s.setDrawFlag b).dt = s.dt := rfl
@[simp] theorem State.setDrawFlag_st (b : Bool) : (s.setDrawFlag b).st = s.st := rfl
@[simp] theorem State.setDrawFlag_fb (b : Bool) : (s.setDrawFlag b).fb = s.fb := rfl
@[simp] theorem State.setDrawFlag_key (b : Bool) : (s.setDrawFlag b).key = s.key := rfl
@[simp] theorem State.setDrawFlag_lastKey (b : Bool) : (s.setDrawFlag b).lastKey = s.lastKey := rfl
@[simp] theorem State.setDrawFlag_phase (b : Bool) : (s.setDrawFlag b).phase = s.phase := rfl
@[simp] theorem State.setDrawFlag_drawFlag (b : Bool) : (s.setDrawFlag b).drawFlag = b := rfl
@[simp] theorem State.setDrawFlag_status (b : Bool) : (s.setDrawFlag b).status = s.status := rfl
@[simp] theorem State.setDrawFlag_cfg (b : Bool) : (s.setDrawFlag b).cfg = s.cfg := rfl
@[simp] theorem State.setDrawFlag_draws (b : Bool) : (s.setDrawFlag b).draws = s.draws := rfl
@[simp] theorem State.setDrawFlag_stepResult (b : Bool) : (s.setDrawFlag b).stepResult = s.stepResult := rfl
@[simp] theorem State.setDrawFlag_loadResult (b : Bool) : (s.setDrawFlag b).loadResult = s.loadResult := rfl
@[simp] theorem State.setDrawFlag_getV (b : Bool) (q : Reg) : (s.setDrawFlag b).getV q = s.getV q := rfl
@[simp] theorem State.setDrawFlag_readByte (b : Bool) (a : Nat) : (s.setDrawFlag b).readByte a = s.readByte a := rfl
@[simp] theorem State.setDrawFlag_pixel (b : Bool) (row : Fin 32) (col : Fin 64) :
    (s.setDrawFlag b).pixel row col = s.pixel row col := rfl

/-! ### setStatus -/

@[simp] theorem State.setStatus_mem (x : Status) : (s.setStatus x).mem = s.mem := rfl
@[simp] theorem State.setStatus_v (x : Status) : (s.setStatus x).v = s.v := rfl
@[simp] theorem State.setStatus_iReg (x : Status) : (s.setStatus x).iReg = s.iReg := rfl
@[simp] theorem State.setStatus_pc (x : Status) : (s.setStatus x).pc = s.pc := rfl
@[simp] theorem State.setStatus_stack (x : Status) : (s.setStatus x).stack = s.stack := rfl
@[simp] theorem State.setStatus_sp (x : Status) : (s.setStatus x).sp = s.sp := rfl
@[simp] theorem State.setStatus_dt (x : Status) : (s.setStatus x).dt = s.dt := rfl
@[simp] theorem State.setStatus_st (x : Status) : (s.setStatus x).st = s.st := rfl
@[simp] theorem State.setStatus_fb (x : Status) : (s.setStatus x).fb = s.fb := rfl
@[simp] theorem State.setStatus_key (x : Status) : (s.setStatus x).key = s.key := rfl
@[simp] theorem State.setStatus_lastKey (x : Status) : (s.setStatus x).lastKey = s.lastKey := rfl
@[simp] theorem State.setStatus_phase (x : Status) : (s.setStatus x).phase = s.phase := rfl
@[simp] theorem State.setStatus_drawFlag (x : Status) : (s.setStatus x).drawFlag = s.drawFlag := rfl
@[simp] theorem State.setStatus_status (x : Status) : (s.setStatus x).status = x := rfl
@[simp] theorem State.setStatus_cfg (x : Status) : (s.setStatus x).cfg = s.cfg := rfl
@[simp] theorem State.setStatus_draws (x : Status) : (s.setStatus x).draws = s.draws := rfl
@[simp] theorem State.setStatus_stepResult (x : Status) : (s.setStatus x).stepResult = s.stepResult := rfl
@[simp] theorem State.setStatus_loadResult (x : Status) : (s.setStatus x).loadResult = s.loadResult := rfl
@[simp] theorem State.setStatus_getV (x : Status) (q : Reg) : (s.setStatus x).getV q = s.getV q := rfl
@[simp] theorem State.setStatus_readByte (x : Status) (a : Nat) : (s.setStatus x).readByte a = s.readByte a := rfl
@[simp] theorem State.setStatus_pixel (x : Status) (row : Fin 32) (col : Fin 64) :
    (s.setStatus x).pixel row col = s.pixel row col := rfl

/-! ### setDraws -/

@[simp] theorem State.setDraws_mem (n : Nat) : (s.setDraws n).mem = s.mem := rfl
@[simp] theorem State.setDraws_v (n : Nat) : (s.setDraws n).v = s.v := rfl
@[simp] theorem State.setDraws_iReg (n : Nat) : (s.setDraws n).iReg = s.iReg := rfl
@[simp] theorem State.setDraws_pc (n : Nat) : (s.setDraws n).pc = s.pc := rfl
@[simp] theorem State.setDraws_stack (n : Nat) : (s.setDraws n).stack = s.stack := rfl
@[simp] theorem State.setDraws_sp (n : Nat) : (s.setDraws n).sp = s.sp := rfl
@[simp] theorem State.setDraws_dt (n : Nat) : (s.setDraws n).dt = s.dt := rfl
@[simp] theorem State.setDraws_st (n : Nat) : (s.setDraws n).st = s.st := rfl
@[simp] theorem State.setDraws_fb (n : Nat) : (s.setDraws n).fb = s.fb := rfl
@[simp] theorem State.setDraws_key (n : Nat) : (s.setDraws n).key = s.key := rfl
@[simp] theorem State.setDraws_lastKey (n : Nat) : (s.setDraws n).lastKey = s.lastKey := rfl
@[simp] theorem State.setDraws_phase (n : Nat) : (s.setDraws n).phase = s.phase := rfl
@[simp] theorem State.setDraws_drawFlag (n : Nat) : (s.setDraws n).drawFlag = s.drawFlag := rfl
@[simp] theorem State.setDraws_status (n : Nat) : (s.setDraws n).status = s.status := rfl
@[simp] theorem State.setDraws_cfg (n : Nat) : (s.setDraws n).cfg = s.cfg := rfl
@[simp] theorem State.setDraws_draws (n : Nat) : (s.setDraws n).draws = n := rfl
@[simp] theorem State.setDraws_stepResult (n : Nat) : (s.setDraws n).stepResult = s.stepResult := rfl
@[simp] theorem State.setDraws_loadResult (n : Nat) : (s.setDraws n).loadResult = s.loadResult := rfl
@[simp] theorem State.setDraws_getV (n : Nat) (q : Reg) : (s.setDraws n).getV q = s.getV q := rfl
@[simp] theorem State.setDraws_readByte (n : Nat) (a : Nat) : (s.setDraws n).readByte a = s.readByte a := rfl
@[simp] theorem State.setDraws_pixel (n : Nat) (row : Fin 32) (col : Fin 64) :
    (s.setDraws n).pixel row col = s.pixel row col := rfl

/-! ### setStepResult -/

@[simp] theorem State.setStepResult_mem (r : StepResult) : (s.setStepResult r).mem = s.mem := rfl
@[simp] theorem State.setStepResult_v (r : StepResult) : (s.setStepResult r).v = s.v := rfl
@[simp] theorem State.setStepResult_iReg (r : StepResult) : (s.setStepResult r).iReg = s.iReg := rfl
@[simp] theorem State.setStepResult_pc (r : StepResult) : (s.setStepResult r).pc = s.pc := rfl
@[simp] theorem State.setStepResult_stack (r : StepResult) : (s.setStepResult r).stack = s.stack := rfl
@[simp] theorem State.setStepResult_sp (r : StepResult) : (s.setStepResult r).sp = s.sp := rfl
@[simp] theorem State.setStepResult_dt (r : StepResult) : (s.setStepResult r).dt = s.dt := rfl
@[simp] theorem State.setStepResult_st (r : StepResult) : (s.setStepResult r).st = s.st := rfl
@[simp] theorem State.setStepResult_fb (r : StepResult) : (s.setStepResult r).fb = s.fb := rfl
@[simp] theorem State.setStepResult_key (r : StepResult) : (s.setStepResult r).key = s.key := rfl
@[simp] theorem State.setStepResult_lastKey (r : StepResult) : (s.setStepResult r).lastKey = s.lastKey := rfl
@[simp] theorem State.setStepResult_phase (r : StepResult) : (s.setStepResult r).phase = s.phase := rfl
@[simp] theorem State.setStepResult_drawFlag (r : StepResult) : (s.setStepResult r).drawFlag = s.drawFlag := rfl
@[simp] theorem State.setStepResult_status (r : StepResult) : (s.setStepResult r).status = s.status := rfl
@[simp] theorem State.setStepResult_cfg (r : StepResult) : (s.setStepResult r).cfg = s.cfg := rfl
@[simp] theorem State.setStepResult_draws (r : StepResult) : (s.setStepResult r).draws = s.draws := rfl
@[simp] theorem State.setStepResult_stepResult (r : StepResult) : (s.setStepResult r).stepResult = some r := rfl
@[simp] theorem State.setStepResult_loadResult (r : StepResult) : (s.setStepResult r).loadResult = s.loadResult := rfl
@[simp] theorem State.setStepResult_getV (r : StepResult) (q : Reg) : (s.setStepResult r).getV q = s.getV q := rfl
@[simp] theorem State.setStepResult_readByte (r : StepResult) (a : Nat) : (s.setStepResult r).readByte a = s.readByte a := rfl
@[simp] theorem State.setStepResult_pixel (r : StepResult) (row : Fin 32) (col : Fin 64) :
    (s.setStepResult r).pixel row col = s.pixel row col := rfl

/-! ### setLoadResult -/

@[simp] theorem State.setLoadResult_mem (r : LoadResult) : (s.setLoadResult r).mem = s.mem := rfl
@[simp] theorem State.setLoadResult_v (r : LoadResult) : (s.setLoadResult r).v = s.v := rfl
@[simp] theorem State.setLoadResult_iReg (r : LoadResult) : (s.setLoadResult r).iReg = s.iReg := rfl
@[simp] theorem State.setLoadResult_pc (r : LoadResult) : (s.setLoadResult r).pc = s.pc := rfl
@[simp] theorem State.setLoadResult_stack (r : LoadResult) : (s.setLoadResult r).stack = s.stack := rfl
@[simp] theorem State.setLoadResult_sp (r : LoadResult) : (s.setLoadResult r).sp = s.sp := rfl
@[simp] theorem State.setLoadResult_dt (r : LoadResult) : (s.setLoadResult r).dt = s.dt := rfl
@[simp] theorem State.setLoadResult_st (r : LoadResult) : (s.setLoadResult r).st = s.st := rfl
@[simp] theorem State.setLoadResult_fb (r : LoadResult) : (s.setLoadResult r).fb = s.fb := rfl
@[simp] theorem State.setLoadResult_key (r : LoadResult) : (s.setLoadResult r).key = s.key := rfl
@[simp] theorem State.setLoadResult_lastKey (r : LoadResult) : (s.setLoadResult r).lastKey = s.lastKey := rfl
@[simp] theorem State.setLoadResult_phase (r : LoadResult) : (s.setLoadResult r).phase = s.phase := rfl
@[simp] theorem State.setLoadResult_drawFlag (r : LoadResult) : (s.setLoadResult r).drawFlag = s.drawFlag := rfl
@[simp] theorem State.setLoadResult_status (r : LoadResult) : (s.setLoadResult r).status = s.status := rfl
@[simp] theorem State.setLoadResult_cfg (r : LoadResult) : (s.setLoadResult r).cfg = s.cfg := rfl
@[simp] theorem State.setLoadResult_draws (r : LoadResult) : (s.setLoadResult r).draws = s.draws := rfl
@[simp] theorem State.setLoadResult_stepResult (r : LoadResult) : (s.setLoadResult r).stepResult = s.stepResult := rfl
@[simp] theorem State.setLoadResult_loadResult (r : LoadResult) : (s.setLoadResult r).loadResult = some r := rfl
@[simp] theorem State.setLoadResult_getV (r : LoadResult) (q : Reg) : (s.setLoadResult r).getV q = s.getV q := rfl
@[simp] theorem State.setLoadResult_readByte (r : LoadResult) (a : Nat) : (s.setLoadResult r).readByte a = s.readByte a := rfl
@[simp] theorem State.setLoadResult_pixel (r : LoadResult) (row : Fin 32) (col : Fin 64) :
    (s.setLoadResult r).pixel row col = s.pixel row col := rfl

/-! ### advance -/

@[simp] theorem State.advance_mem : s.advance.mem = s.mem := rfl
@[simp] theorem State.advance_v : s.advance.v = s.v := rfl
@[simp] theorem State.advance_iReg : s.advance.iReg = s.iReg := rfl
@[simp] theorem State.advance_pc : s.advance.pc = s.pc + 2 := rfl
@[simp] theorem State.advance_stack : s.advance.stack = s.stack := rfl
@[simp] theorem State.advance_sp : s.advance.sp = s.sp := rfl
@[simp] theorem State.advance_dt : s.advance.dt = s.dt := rfl
@[simp] theorem State.advance_st : s.advance.st = s.st := rfl
@[simp] theorem State.advance_fb : s.advance.fb = s.fb := rfl
@[simp] theorem State.advance_key : s.advance.key = s.key := rfl
@[simp] theorem State.advance_lastKey : s.advance.lastKey = s.lastKey := rfl
@[simp] theorem State.advance_phase : s.advance.phase = s.phase := rfl
@[simp] theorem State.advance_drawFlag : s.advance.drawFlag = s.drawFlag := rfl
@[simp] theorem State.advance_status : s.advance.status = s.status := rfl
@[simp] theorem State.advance_cfg : s.advance.cfg = s.cfg := rfl
@[simp] theorem State.advance_draws : s.advance.draws = s.draws := rfl
@[simp] theorem State.advance_stepResult : s.advance.stepResult = s.stepResult := rfl
@[simp] theorem State.advance_loadResult : s.advance.loadResult = s.loadResult := rfl
@[simp] theorem State.advance_getV (q : Reg) : s.advance.getV q = s.getV q := rfl
@[simp] theorem State.advance_readByte (a : Nat) : s.advance.readByte a = s.readByte a := rfl
@[simp] theorem State.advance_pixel (row : Fin 32) (col : Fin 64) :
    s.advance.pixel row col = s.pixel row col := rfl

/-! ### writeByte -/

@[simp] theorem State.writeByte_v (a : Nat) (b : Byte) : (s.writeByte a b).v = s.v := by
  unfold State.writeByte; split <;> rfl
@[simp] theorem State.writeByte_iReg (a : Nat) (b : Byte) : (s.writeByte a b).iReg = s.iReg := by
  unfold State.writeByte; split <;> rfl
@[simp] theorem State.writeByte_pc (a : Nat) (b : Byte) : (s.writeByte a b).pc = s.pc := by
  unfold State.writeByte; split <;> rfl
@[simp] theorem State.writeByte_stack (a : Nat) (b : Byte) : (s.writeByte a b).stack = s.stack := by
  unfold State.writeByte; split <;> rfl
@[simp] theorem State.writeByte_sp (a : Nat) (b : Byte) : (s.writeByte a b).sp = s.sp := by
  unfold State.writeByte; split <;> rfl
@[simp] theorem State.writeByte_dt (a : Nat) (b : Byte) : (s.writeByte a b).dt = s.dt := by
  unfold State.writeByte; split <;> rfl
@[simp] theorem State.writeByte_st (a : Nat) (b : Byte) : (s.writeByte a b).st = s.st := by
  unfold State.writeByte; split <;> rfl
@[simp] theorem State.writeByte_fb (a : Nat) (b : Byte) : (s.writeByte a b).fb = s.fb := by
  unfold State.writeByte; split <;> rfl
@[simp] theorem State.writeByte_key (a : Nat) (b : Byte) : (s.writeByte a b).key = s.key := by
  unfold State.writeByte; split <;> rfl
@[simp] theorem State.writeByte_lastKey (a : Nat) (b : Byte) : (s.writeByte a b).lastKey = s.lastKey := by
  unfold State.writeByte; split <;> rfl
@[simp] theorem State.writeByte_phase (a : Nat) (b : Byte) : (s.writeByte a b).phase = s.phase := by
  unfold State.writeByte; split <;> rfl
@[simp] theorem State.writeByte_drawFlag (a : Nat) (b : Byte) : (s.writeByte a b).drawFlag = s.drawFlag := by
  unfold State.writeByte; split <;> rfl
@[simp] theorem State.writeByte_status (a : Nat) (b : Byte) : (s.writeByte a b).status = s.status := by
  unfold State.writeByte; split <;> rfl
@[simp] theorem State.writeByte_cfg (a : Nat) (b : Byte) : (s.writeByte a b).cfg = s.cfg := by
  unfold State.writeByte; split <;> rfl
@[simp] theorem State.writeByte_draws (a : Nat) (b : Byte) : (s.writeByte a b).draws = s.draws := by
  unfold State.writeByte; split <;> rfl
@[simp] theorem State.writeByte_stepResult (a : Nat) (b : Byte) : (s.writeByte a b).stepResult = s.stepResult := by
  unfold State.writeByte; split <;> rfl
@[simp] theorem State.writeByte_loadResult (a : Nat) (b : Byte) : (s.writeByte a b).loadResult = s.loadResult := by
  unfold State.writeByte; split <;> rfl
@[simp] theorem State.writeByte_getV (a : Nat) (b : Byte) (q : Reg) : (s.writeByte a b).getV q = s.getV q := by
  simp [State.getV]
@[simp] theorem State.writeByte_pixel (a : Nat) (b : Byte) (row : Fin 32) (col : Fin 64) :
    (s.writeByte a b).pixel row col = s.pixel row col := by
  simp [State.pixel]

end Sys2Proof.Machine
end

