-- ==== Sys2Proof/Laws/Memory.lean ====
section
/-! SUPPORT. The laws of the memory array: read after write, and that a write keeps the canonical form. -/

namespace Sys2Proof.Machine

variable (c : Config)

theorem Memory.entry_cases (a : Nat) (b : Byte) :
    (b = initialByte c a ∧ Memory.entry c a b = []) ∨ (b ≠ initialByte c a ∧ Memory.entry c a b = [(a, b)]) := by
  unfold Memory.entry
  by_cases h : b = initialByte c a <;> simp [h]

/-- Cells above an address do not answer for it. -/
theorem Memory.read_of_lt (m : List Host.Cell) (a : Nat) (h : ∀ e ∈ m, a < e.1) :
    Memory.read c m a = initialByte c a := by
  induction m with
  | nil => rfl
  | cons e m ih =>
    have he : a < e.1 := h e (by simp)
    have : a ≠ e.1 := by omega
    simp [Memory.read, this]
    exact ih fun f hf => h f (by simp [hf])

theorem Memory.read_entry_append (m : List Host.Cell) (a q : Nat) (b : Byte) (h : ∀ e ∈ m, a < e.1) :
    Memory.read c (Memory.entry c a b ++ m) q = if q = a then b else Memory.read c m q := by
  rcases Memory.entry_cases c a b with ⟨hb, he⟩ | ⟨_, he⟩
  · rw [he]
    by_cases hq : q = a
    · subst hq; simp [Memory.read_of_lt c m q h, hb]
    · simp [hq]
  · rw [he]; simp [Memory.read]

/-- Read after write, on memory in canonical form. -/
theorem Memory.read_write (m : List Host.Cell) (h : Memory.wf c m) (a q : Nat) (b : Byte) :
    Memory.read c (Memory.write c m a b) q = if q = a then b else Memory.read c m q := by
  induction m with
  | nil => simpa [Memory.write] using Memory.read_entry_append c [] a q b (by simp)
  | cons e m ih =>
    obtain ⟨k, x⟩ := e
    obtain ⟨hp, hc⟩ := h
    rw [List.pairwise_cons] at hp
    have hm : Memory.wf c m := ⟨hp.2, fun e he => hc e (by simp [he])⟩
    unfold Memory.write
    split
    · rename_i hak
      refine Memory.read_entry_append c _ a q b fun e he => ?_
      rcases List.mem_cons.1 he with rfl | he
      · exact hak
      · exact lt_trans hak (hp.1 e he)
    · split
      · rename_i hak
        subst hak
        rw [Memory.read_entry_append c m a q b fun e he => hp.1 e he]
        by_cases hq : q = a <;> simp [Memory.read, hq]
      · rename_i h1 h2
        simp only [Memory.read, ih hm]
        by_cases hq : q = k
        · subst hq
          have : q ≠ a := fun h => h2 h.symm
          simp [this]
        · simp [hq]

theorem Memory.entry_mem (a : Nat) (b : Byte) (e : Host.Cell) (h : e ∈ Memory.entry c a b) :
    e = (a, b) ∧ b ≠ initialByte c a := by
  rcases Memory.entry_cases c a b with ⟨_, he⟩ | ⟨hb, he⟩ <;> simp_all

/-- The cells of a written memory are old ones and the written one. -/
theorem Memory.mem_write (m : List Host.Cell) (a : Nat) (b : Byte) (e : Host.Cell) (h : e ∈ Memory.write c m a b) :
    e ∈ m ∨ (e = (a, b) ∧ b ≠ initialByte c a) := by
  induction m with
  | nil => exact Or.inr (Memory.entry_mem c a b e h)
  | cons f m ih =>
    obtain ⟨k, x⟩ := f
    unfold Memory.write at h
    split at h
    · rcases List.mem_append.1 h with h | h
      · exact Or.inr (Memory.entry_mem c a b e h)
      · exact Or.inl h
    · split at h
      · rcases List.mem_append.1 h with h | h
        · exact Or.inr (Memory.entry_mem c a b e h)
        · exact Or.inl (by simp [h])
      · rcases List.mem_cons.1 h with h | h
        · exact Or.inl (by simp [h])
        · rcases ih h with h | h
          · exact Or.inl (by simp [h])
          · exact Or.inr h

theorem Memory.entry_pairwise (m : List Host.Cell) (a : Nat) (b : Byte) (h : ∀ e ∈ m, a < e.1)
    (hp : m.Pairwise (fun e f => e.1 < f.1)) :
    (Memory.entry c a b ++ m).Pairwise (fun e f => e.1 < f.1) := by
  rcases Memory.entry_cases c a b with ⟨_, he⟩ | ⟨_, he⟩
  · simpa [he] using hp
  · rw [he]; exact List.pairwise_cons.2 ⟨h, hp⟩

theorem Memory.write_pairwise (m : List Host.Cell) (a : Nat) (b : Byte)
    (hp : m.Pairwise (fun e f => e.1 < f.1)) :
    (Memory.write c m a b).Pairwise (fun e f => e.1 < f.1) := by
  induction m with
  | nil => simpa [Memory.write] using Memory.entry_pairwise c [] a b (by simp) List.Pairwise.nil
  | cons f m ih =>
    obtain ⟨k, x⟩ := f
    have hq := List.pairwise_cons.1 hp
    unfold Memory.write
    split
    · rename_i hak
      refine Memory.entry_pairwise c _ a b (fun e he => ?_) hp
      rcases List.mem_cons.1 he with rfl | he
      · exact hak
      · exact lt_trans hak (hq.1 e he)
    · split
      · rename_i hak
        subst hak
        exact Memory.entry_pairwise c m a b (fun e he => hq.1 e he) hq.2
      · rename_i h1 h2
        refine List.pairwise_cons.2 ⟨fun e he => ?_, ih hq.2⟩
        rcases Memory.mem_write c m a b e he with he | ⟨rfl, _⟩
        · exact hq.1 e he
        · show k < a
          omega

/-- A write inside the 4096 bytes keeps the canonical form. -/
theorem Memory.write_wf (m : List Host.Cell) (h : Memory.wf c m) (a : Nat) (b : Byte) (ha : a < memSize) :
    Memory.wf c (Memory.write c m a b) := by
  refine ⟨Memory.write_pairwise c m a b h.1, fun e he => ?_⟩
  rcases Memory.mem_write c m a b e he with he | ⟨rfl, hb⟩
  · exact h.2 e he
  · exact ⟨ha, hb⟩

/-- Outside the 4096 bytes canonical memory lists nothing. -/
theorem Memory.read_of_ge (m : List Host.Cell) (h : Memory.wf c m) (a : Nat) (ha : memSize ≤ a) :
    Memory.read c m a = initialByte c a := by
  induction m with
  | nil => rfl
  | cons e m ih =>
    have hp := List.pairwise_cons.1 h.1
    have : a ≠ e.1 := by have := (h.2 e (by simp)).1; omega
    simp [Memory.read, this]
    exact ih ⟨hp.2, fun f hf => h.2 f (by simp [hf])⟩

end Sys2Proof.Machine
end

