-- ==== Sys2Proof/Laws/Ops.lean ====
section
/-! SUPPORT. What the shared operations do, said once: registers, memory, blocks of memory, the stack, the ends of a step. -/

namespace Sys2Proof.Machine

/-! ### Registers -/

/-- Read after write of a register. -/
theorem State.getV_setV (s : State) (r q : Reg) (b : Byte) :
    (s.setV r b).getV q = if q = r then b else s.getV q := by
  by_cases h : q = r
  · subst h; simp [State.getV]
  · have : r.val ≠ q.val := fun h' => h (Fin.ext h'.symm)
    simp [State.getV, h, Vector.getElem_set_ne _ _ this]

@[simp] theorem State.getV_setV_same (s : State) (r : Reg) (b : Byte) : (s.setV r b).getV r = b := by
  simp [State.getV_setV]

theorem State.getV_setV_other (s : State) (r q : Reg) (b : Byte) (h : q ≠ r) : (s.setV r b).getV q = s.getV q := by
  simp [State.getV_setV, h]

/-! ### Memory -/

/-- Read after write of a byte of memory. -/
theorem State.readByte_writeByte (s : State) (h : Memory.wf s.cfg s.mem) (a q : Nat) (b : Byte) :
    (s.writeByte a b).readByte q = if q = a ∧ a < memSize then b else s.readByte q := by
  unfold State.writeByte State.readByte
  split
  · rename_i ha; simp [Memory.read_write s.cfg s.mem h, ha]
  · rename_i ha; simp [ha]

theorem State.writeByte_wf (s : State) (h : Memory.wf s.cfg s.mem) (a : Nat) (b : Byte) :
    Memory.wf (s.writeByte a b).cfg (s.writeByte a b).mem := by
  unfold State.writeByte
  split
  · rename_i ha; exact Memory.write_wf s.cfg s.mem h a b ha
  · exact h

@[simp] theorem State.writeBytes_v (s : State) (a : Nat) (bs : List Byte) :
    (s.writeBytes a bs).v = s.v := by
  induction bs generalizing s a with
  | nil => rfl
  | cons b bs ih => simp [State.writeBytes, ih]

@[simp] theorem State.writeBytes_iReg (s : State) (a : Nat) (bs : List Byte) :
    (s.writeBytes a bs).iReg = s.iReg := by
  induction bs generalizing s a with
  | nil => rfl
  | cons b bs ih => simp [State.writeBytes, ih]

@[simp] theorem State.writeBytes_pc (s : State) (a : Nat) (bs : List Byte) :
    (s.writeBytes a bs).pc = s.pc := by
  induction bs generalizing s a with
  | nil => rfl
  | cons b bs ih => simp [State.writeBytes, ih]

@[simp] theorem State.writeBytes_stack (s : State) (a : Nat) (bs : List Byte) :
    (s.writeBytes a bs).stack = s.stack := by
  induction bs generalizing s a with
  | nil => rfl
  | cons b bs ih => simp [State.writeBytes, ih]

@[simp] theorem State.writeBytes_sp (s : State) (a : Nat) (bs : List Byte) :
    (s.writeBytes a bs).sp = s.sp := by
  induction bs generalizing s a with
  | nil => rfl
  | cons b bs ih => simp [State.writeBytes, ih]

@[simp] theorem State.writeBytes_dt (s : State) (a : Nat) (bs : List Byte) :
    (s.writeBytes a bs).dt = s.dt := by
  induction bs generalizing s a with
  | nil => rfl
  | cons b bs ih => simp [State.writeBytes, ih]

@[simp] theorem State.writeBytes_st (s : State) (a : Nat) (bs : List Byte) :
    (s.writeBytes a bs).st = s.st := by
  induction bs generalizing s a with
  | nil => rfl
  | cons b bs ih => simp [State.writeBytes, ih]

@[simp] theorem State.writeBytes_fb (s : State) (a : Nat) (bs : List Byte) :
    (s.writeBytes a bs).fb = s.fb := by
  induction bs generalizing s a with
  | nil => rfl
  | cons b bs ih => simp [State.writeBytes, ih]

@[simp] theorem State.writeBytes_key (s : State) (a : Nat) (bs : List Byte) :
    (s.writeBytes a bs).key = s.key := by
  induction bs generalizing s a with
  | nil => rfl
  | cons b bs ih => simp [State.writeBytes, ih]

@[simp] theorem State.writeBytes_lastKey (s : State) (a : Nat) (bs : List Byte) :
    (s.writeBytes a bs).lastKey = s.lastKey := by
  induction bs generalizing s a with
  | nil => rfl
  | cons b bs ih => simp [State.writeBytes, ih]

@[simp] theorem State.writeBytes_phase (s : State) (a : Nat) (bs : List Byte) :
    (s.writeBytes a bs).phase = s.phase := by
  induction bs generalizing s a with
  | nil => rfl
  | cons b bs ih => simp [State.writeBytes, ih]

@[simp] theorem State.writeBytes_drawFlag (s : State) (a : Nat) (bs : List Byte) :
    (s.writeBytes a bs).drawFlag = s.drawFlag := by
  induction bs generalizing s a with
  | nil => rfl
  | cons b bs ih => simp [State.writeBytes, ih]

@[simp] theorem State.writeBytes_status (s : State) (a : Nat) (bs : List Byte) :
    (s.writeBytes a bs).status = s.status := by
  induction bs generalizing s a with
  | nil => rfl
  | cons b bs ih => simp [State.writeBytes, ih]

@[simp] theorem State.writeBytes_cfg (s : State) (a : Nat) (bs : List Byte) :
    (s.writeBytes a bs).cfg = s.cfg := by
  induction bs generalizing s a with
  | nil => rfl
  | cons b bs ih => simp [State.writeBytes, ih]

@[simp] theorem State.writeBytes_draws (s : State) (a : Nat) (bs : List Byte) :
    (s.writeBytes a bs).draws = s.draws := by
  induction bs generalizing s a with
  | nil => rfl
  | cons b bs ih => simp [State.writeBytes, ih]

@[simp] theorem State.writeBytes_stepResult (s : State) (a : Nat) (bs : List Byte) :
    (s.writeBytes a bs).stepResult = s.stepResult := by
  induction bs generalizing s a with
  | nil => rfl
  | cons b bs ih => simp [State.writeBytes, ih]

@[simp] theorem State.writeBytes_loadResult (s : State) (a : Nat) (bs : List Byte) :
    (s.writeBytes a bs).loadResult = s.loadResult := by
  induction bs generalizing s a with
  | nil => rfl
  | cons b bs ih => simp [State.writeBytes, ih]

@[simp] theorem State.writeBytes_getV (s : State) (a : Nat) (bs : List Byte) (q : Reg) :
    (s.writeBytes a bs).getV q = s.getV q := by
  simp [State.getV]

@[simp] theorem State.writeBytes_pixel (s : State) (a : Nat) (bs : List Byte) (row : Fin 32) (col : Fin 64) :
    (s.writeBytes a bs).pixel row col = s.pixel row col := by
  simp [State.pixel]

theorem State.writeBytes_wf (s : State) (h : Memory.wf s.cfg s.mem) (a : Nat) (bs : List Byte) :
    Memory.wf (s.writeBytes a bs).cfg (s.writeBytes a bs).mem := by
  induction bs generalizing s a with
  | nil => exact h
  | cons b bs ih => exact ih _ (State.writeByte_wf s h a b) (a + 1)

/-- What memory reads as after a block is written: the block's bytes where it lies, the old bytes elsewhere. -/
theorem State.readByte_writeBytes (s : State) (h : Memory.wf s.cfg s.mem) (a : Nat) (bs : List Byte)
    (hr : a + bs.length ≤ memSize) (q : Nat) :
    (s.writeBytes a bs).readByte q =
      if a ≤ q ∧ q < a + bs.length then bs.getD (q - a) 0 else s.readByte q := by
  induction bs generalizing s a with
  | nil => simp [State.writeBytes]
  | cons b bs ih =>
    rw [List.length_cons] at hr
    have ha : a < memSize := by omega
    simp only [State.writeBytes]
    rw [ih _ (State.writeByte_wf s h a b) (a + 1) (by omega), State.readByte_writeByte s h]
    by_cases hq : q = a
    · subst hq
      have h1 : ¬ (q + 1 ≤ q ∧ q < q + 1 + bs.length) := by omega
      have h2 : q ≤ q ∧ q < q + (b :: bs).length := by simp
      rw [if_neg h1, if_pos h2]; simp [ha]
    · by_cases hin : a + 1 ≤ q ∧ q < a + 1 + bs.length
      · have h2 : a ≤ q ∧ q < a + (b :: bs).length := by simp only [List.length_cons]; omega
        rw [if_pos hin, if_pos h2]
        have : q - a = (q - (a + 1)) + 1 := by omega
        rw [this, List.getD_cons_succ]
      · have h2 : ¬ (a ≤ q ∧ q < a + (b :: bs).length) := by simp only [List.length_cons]; omega
        rw [if_neg hin, if_neg h2]; simp [hq]

@[simp] theorem State.bytesAt_length (s : State) (a len : Nat) : (s.bytesAt a len).length = len := by
  simp [State.bytesAt]

theorem State.bytesAt_getD (s : State) (a len k : Nat) (h : k < len) :
    (s.bytesAt a len).getD k 0 = s.readByte (a + k) := by
  simp [State.bytesAt, List.getD_eq_getElem?_getD, h]

/-! ### Blocks of memory -/

/-- A block is in range exactly when it is empty or ends inside the 4096 bytes. -/
theorem blockFault_eq_none (a len : Nat) : blockFault a len = none ↔ len = 0 ∨ a + len ≤ 0x1000 := by
  unfold blockFault
  split <;> simp <;> omega

/-- A block out of range records its first address beyond 0xFFF. -/
theorem blockFault_of_out (a len : Nat) (h0 : 0 < len) (h : 0x1000 < a + len) :
    blockFault a len = some (.addressOutOfRange (if 0xFFF < a then a else 0x1000)) := by
  unfold blockFault
  rw [if_pos (by omega)]

theorem blockFault_some (a len : Nat) (e : FatalError) (h : blockFault a len = some e) :
    0 < len ∧ 0x1000 < a + len ∧ e = .addressOutOfRange (if 0xFFF < a then a else 0x1000) := by
  unfold blockFault at h
  split at h
  · rename_i hc; refine ⟨hc.1, by omega, ?_⟩; simpa using h.symm
  · simp at h

theorem readBlock_ok (s : State) (a len : Nat) (h : len = 0 ∨ a + len ≤ 0x1000) :
    readBlock s a len = .ok (s.bytesAt a len) := by
  simp [readBlock, (blockFault_eq_none a len).2 h]

theorem readBlock_out (s : State) (a len : Nat) (h0 : 0 < len) (h : 0x1000 < a + len) :
    readBlock s a len = .error (.addressOutOfRange (if 0xFFF < a then a else 0x1000)) := by
  simp [readBlock, blockFault_of_out a len h0 h]

theorem writeBlock_ok (s : State) (a : Nat) (bs : List Byte) (h : bs.length = 0 ∨ a + bs.length ≤ 0x1000) :
    writeBlock s a bs = .ok (s.writeBytes a bs) := by
  simp only [writeBlock, (blockFault_eq_none a bs.length).2 h]

theorem writeBlock_out (s : State) (a : Nat) (bs : List Byte) (h0 : 0 < bs.length) (h : 0x1000 < a + bs.length) :
    writeBlock s a bs = .error (.addressOutOfRange (if 0xFFF < a then a else 0x1000)) := by
  simp only [writeBlock, blockFault_of_out a bs.length h0 h]

/-- What a block read can answer. -/
theorem readBlock_cases (s : State) (a len : Nat) :
    (readBlock s a len = .ok (s.bytesAt a len) ∧ (len = 0 ∨ a + len ≤ 0x1000)) ∨
    (readBlock s a len = .error (.addressOutOfRange (if 0xFFF < a then a else 0x1000)) ∧ 0x1000 < a + len) := by
  by_cases h : len = 0 ∨ a + len ≤ 0x1000
  · exact Or.inl ⟨readBlock_ok s a len h, h⟩
  · exact Or.inr ⟨readBlock_out s a len (by omega) (by omega), by omega⟩

/-- What a block write can answer. -/
theorem writeBlock_cases (s : State) (a : Nat) (bs : List Byte) :
    (writeBlock s a bs = .ok (s.writeBytes a bs) ∧ (bs.length = 0 ∨ a + bs.length ≤ 0x1000)) ∨
    (writeBlock s a bs = .error (.addressOutOfRange (if 0xFFF < a then a else 0x1000)) ∧ 0x1000 < a + bs.length) := by
  by_cases h : bs.length = 0 ∨ a + bs.length ≤ 0x1000
  · exact Or.inl ⟨writeBlock_ok s a bs h, h⟩
  · exact Or.inr ⟨writeBlock_out s a bs (by omega) (by omega), by omega⟩

@[simp] theorem bcdDigits_length (b : Byte) : (bcdDigits b).length = 3 := rfl

@[simp] theorem State.regsUpTo_length (s : State) (x : Reg) : (s.regsUpTo x).length = x.val + 1 := by
  simp [State.regsUpTo]

theorem State.regsUpTo_getD (s : State) (x r : Reg) (h : r ≤ x) : (s.regsUpTo x).getD r.val 0 = s.getV r := by
  have hx : r.val < x.val + 1 := Nat.lt_succ_of_le h
  simp [State.regsUpTo, State.getV, List.getD_eq_getElem?_getD, hx]


@[simp] theorem State.setRegsFrom_mem (s : State) (k : Nat) (bs : List Byte) :
    (s.setRegsFrom k bs).mem = s.mem := by
  induction bs generalizing s k with
  | nil => rfl
  | cons b bs ih => rw [State.setRegsFrom, ih]; split <;> rfl

@[simp] theorem State.setRegsFrom_iReg (s : State) (k : Nat) (bs : List Byte) :
    (s.setRegsFrom k bs).iReg = s.iReg := by
  induction bs generalizing s k with
  | nil => rfl
  | cons b bs ih => rw [State.setRegsFrom, ih]; split <;> rfl

@[simp] theorem State.setRegsFrom_pc (s : State) (k : Nat) (bs : List Byte) :
    (s.setRegsFrom k bs).pc = s.pc := by
  induction bs generalizing s k with
  | nil => rfl
  | cons b bs ih => rw [State.setRegsFrom, ih]; split <;> rfl

@[simp] theorem State.setRegsFrom_stack (s : State) (k : Nat) (bs : List Byte) :
    (s.setRegsFrom k bs).stack = s.stack := by
  induction bs generalizing s k with
  | nil => rfl
  | cons b bs ih => rw [State.setRegsFrom, ih]; split <;> rfl

@[simp] theorem State.setRegsFrom_sp (s : State) (k : Nat) (bs : List Byte) :
    (s.setRegsFrom k bs).sp = s.sp := by
  induction bs generalizing s k with
  | nil => rfl
  | cons b bs ih => rw [State.setRegsFrom, ih]; split <;> rfl

@[simp] theorem State.setRegsFrom_dt (s : State) (k : Nat) (bs : List Byte) :
    (s.setRegsFrom k bs).dt = s.dt := by
  induction bs generalizing s k with
  | nil => rfl
  | cons b bs ih => rw [State.setRegsFrom, ih]; split <;> rfl

@[simp] theorem State.setRegsFrom_st (s : State) (k : Nat) (bs : List Byte) :
    (s.setRegsFrom k bs).st = s.st := by
  induction bs generalizing s k with
  | nil => rfl
  | cons b bs ih => rw [State.setRegsFrom, ih]; split <;> rfl

@[simp] theorem State.setRegsFrom_fb (s : State) (k : Nat) (bs : List Byte) :
    (s.setRegsFrom k bs).fb = s.fb := by
  induction bs generalizing s k with
  | nil => rfl
  | cons b bs ih => rw [State.setRegsFrom, ih]; split <;> rfl

@[simp] theorem State.setRegsFrom_key (s : State) (k : Nat) (bs : List Byte) :
    (s.setRegsFrom k bs).key = s.key := by
  induction bs generalizing s k with
  | nil => rfl
  | cons b bs ih => rw [State.setRegsFrom, ih]; split <;> rfl

@[simp] theorem State.setRegsFrom_lastKey (s : State) (k : Nat) (bs : List Byte) :
    (s.setRegsFrom k bs).lastKey = s.lastKey := by
  induction bs generalizing s k with
  | nil => rfl
  | cons b bs ih => rw [State.setRegsFrom, ih]; split <;> rfl

@[simp] theorem State.setRegsFrom_phase (s : State) (k : Nat) (bs : List Byte) :
    (s.setRegsFrom k bs).phase = s.phase := by
  induction bs generalizing s k with
  | nil => rfl
  | cons b bs ih => rw [State.setRegsFrom, ih]; split <;> rfl

@[simp] theorem State.setRegsFrom_drawFlag (s : State) (k : Nat) (bs : List Byte) :
    (s.setRegsFrom k bs).drawFlag = s.drawFlag := by
  induction bs generalizing s k with
  | nil => rfl
  | cons b bs ih => rw [State.setRegsFrom, ih]; split <;> rfl

@[simp] theorem State.setRegsFrom_status (s : State) (k : Nat) (bs : List Byte) :
    (s.setRegsFrom k bs).status = s.status := by
  induction bs generalizing s k with
  | nil => rfl
  | cons b bs ih => rw [State.setRegsFrom, ih]; split <;> rfl

@[simp] theorem State.setRegsFrom_cfg (s : State) (k : Nat) (bs : List Byte) :
    (s.setRegsFrom k bs).cfg = s.cfg := by
  induction bs generalizing s k with
  | nil => rfl
  | cons b bs ih => rw [State.setRegsFrom, ih]; split <;> rfl

@[simp] theorem State.setRegsFrom_draws (s : State) (k : Nat) (bs : List Byte) :
    (s.setRegsFrom k bs).draws = s.draws := by
  induction bs generalizing s k with
  | nil => rfl
  | cons b bs ih => rw [State.setRegsFrom, ih]; split <;> rfl

@[simp] theorem State.setRegsFrom_stepResult (s : State) (k : Nat) (bs : List Byte) :
    (s.setRegsFrom k bs).stepResult = s.stepResult := by
  induction bs generalizing s k with
  | nil => rfl
  | cons b bs ih => rw [State.setRegsFrom, ih]; split <;> rfl

@[simp] theorem State.setRegsFrom_loadResult (s : State) (k : Nat) (bs : List Byte) :
    (s.setRegsFrom k bs).loadResult = s.loadResult := by
  induction bs generalizing s k with
  | nil => rfl
  | cons b bs ih => rw [State.setRegsFrom, ih]; split <;> rfl

@[simp] theorem State.setRegsFrom_readByte (s : State) (k : Nat) (bs : List Byte) (a : Nat) :
    (s.setRegsFrom k bs).readByte a = s.readByte a := by
  simp [State.readByte]

@[simp] theorem State.setRegsFrom_pixel (s : State) (k : Nat) (bs : List Byte) (row : Fin 32) (col : Fin 64) :
    (s.setRegsFrom k bs).pixel row col = s.pixel row col := by
  simp [State.pixel]

/-- The registers after a block is loaded into them from number `k` on. -/
theorem State.getV_setRegsFrom (s : State) (k : Nat) (bs : List Byte) (q : Reg) :
    (s.setRegsFrom k bs).getV q =
      if k ≤ q.val ∧ q.val < k + bs.length then bs.getD (q.val - k) 0 else s.getV q := by
  induction bs generalizing s k with
  | nil => simp [State.setRegsFrom]
  | cons b bs ih =>
    rw [State.setRegsFrom, ih]
    by_cases hq : q.val = k
    · have h1 : ¬ (k + 1 ≤ q.val ∧ q.val < k + 1 + bs.length) := by omega
      have h2 : k ≤ q.val ∧ q.val < k + (b :: bs).length := by simp only [List.length_cons]; omega
      have h3 : k < 16 := by omega
      have h4 : q = ⟨k, h3⟩ := Fin.ext hq
      rw [if_neg h1, if_pos h2, dif_pos h3, h4]
      simp
    · have hold : ∀ h : k < 16, (s.setV ⟨k, h⟩ b).getV q = s.getV q := fun h =>
        State.getV_setV_other s _ q b (fun h' => hq (congrArg Fin.val h'))
      have hold' : (if h : k < 16 then s.setV ⟨k, h⟩ b else s).getV q = s.getV q := by
        split
        · exact hold _
        · rfl
      rw [hold']
      by_cases hin : k + 1 ≤ q.val ∧ q.val < k + 1 + bs.length
      · have h2 : k ≤ q.val ∧ q.val < k + (b :: bs).length := by simp only [List.length_cons]; omega
        rw [if_pos hin, if_pos h2]
        have : q.val - k = (q.val - (k + 1)) + 1 := by omega
        rw [this, List.getD_cons_succ]
      · have h2 : ¬ (k ≤ q.val ∧ q.val < k + (b :: bs).length) := by simp only [List.length_cons]; omega
        rw [if_neg hin, if_neg h2]

/-! ### The ends of a step -/

/-- What going on or raising can answer as a next state. -/
theorem orRaise_next {α : Type} {s t : State} {x : Except FatalError α} {k : α → Result}
    (h : orRaise s x k = .next t) :
    (∃ e, x = .error e ∧ raise e s = .next t) ∨ (∃ y, x = .ok y ∧ k y = .next t) := by
  cases x with
  | error e => exact Or.inl ⟨e, rfl, h⟩
  | ok y => exact Or.inr ⟨y, rfl, h⟩

theorem raise_next {e : FatalError} {s t : State} (h : raise e s = .next t) :
    t = (s.setStatus (.halted e s.pc)).setStepResult ⟨.error e, false, none⟩ := by
  simpa [raise] using h.symm

theorem complete_next {s t : State} (h : complete s = .next t) : t = s.setStepResult ⟨.ok, false, none⟩ := by
  simpa [complete, completeWith] using h.symm

theorem completeDraw_next {s t : State} (h : completeDraw s = .next t) :
    t = (s.setDrawFlag true).setStepResult ⟨.ok, true, none⟩ := by
  simpa [completeDraw, completeWith] using h.symm

/-- What pushing a return address can answer as a next state. -/
theorem pushReturn_next {s s1 t : State} {w : Word} {k : State → Result} (h : pushReturn s s1 w k = .next t) :
    (s1.cfg.stackDepth ≤ s1.sp ∧ raise (.stackOverflow s.pc) s = .next t) ∨
    (s1.sp < s1.cfg.stackDepth ∧ s1.sp < s1.stack.length ∧
      k ((s1.setStackEntry s1.sp w).setSp (s1.sp + 1)) = .next t) := by
  unfold pushReturn at h
  split at h
  · exact Or.inl ⟨‹_›, h⟩
  · split at h
    · exact Or.inr ⟨by omega, ‹_›, h⟩
    · simp at h

/-- What popping a return address can answer as a next state. -/
theorem popReturn_next {s s1 t : State} {k : State → Word → Result} (h : popReturn s s1 k = .next t) :
    (s1.sp = 0 ∧ raise (.stackUnderflow s.pc) s = .next t) ∨
    (0 < s1.sp ∧ ∃ w, s1.stack[s1.sp - 1]? = some w ∧ k (s1.setSp (s1.sp - 1)) w = .next t) := by
  unfold popReturn at h
  split at h
  · exact Or.inl ⟨‹_›, h⟩
  · split at h
    · exact Or.inr ⟨by omega, _, ‹_›, h⟩
    · simp at h

/-- The only two fields a skip can touch is pc, by two. -/
theorem State.skipIf_eq (s : State) (c : Bool) : s.skipIf c = s.setPc (if c then s.pc + 2 else s.pc) := by
  cases c <;> rfl

/-! ### The fetch's read -/

theorem memReadWord_ok (s : State) (a : Nat) (h : a + 1 ≤ 0xFFF) :
    memReadWord s a = .ok (s.readByte a ++ s.readByte (a + 1)) := by
  have h1 : ¬ 0xFFF < a := by omega
  have h2 : ¬ 0xFFF < a + 1 := by omega
  simp only [memReadWord, memRead, if_neg h1, if_neg h2]

/-- The fetch's read beyond memory records the first address beyond it. -/
theorem memReadWord_out (s : State) (a : Nat) (h : 0xFFF < a + 1) :
    memReadWord s a = .error (.addressOutOfRange (if 0xFFF < a then a else 0x1000)) := by
  by_cases h1 : 0xFFF < a
  · simp [memReadWord, memRead, h1]
  · have : a = 0xFFF := by omega
    subst this
    simp [memReadWord, memRead]

/-! ### Subtractions and shifts -/


@[simp] theorem State.subWrite_mem (s : State) (x : Reg) (d : Byte) (f : Bool) :
    (s.subWrite x d f).mem = s.mem := by
  unfold State.subWrite; split <;> rfl
@[simp] theorem State.subWrite_iReg (s : State) (x : Reg) (d : Byte) (f : Bool) :
    (s.subWrite x d f).iReg = s.iReg := by
  unfold State.subWrite; split <;> rfl
@[simp] theorem State.subWrite_pc (s : State) (x : Reg) (d : Byte) (f : Bool) :
    (s.subWrite x d f).pc = s.pc := by
  unfold State.subWrite; split <;> rfl
@[simp] theorem State.subWrite_stack (s : State) (x : Reg) (d : Byte) (f : Bool) :
    (s.subWrite x d f).stack = s.stack := by
  unfold State.subWrite; split <;> rfl
@[simp] theorem State.subWrite_sp (s : State) (x : Reg) (d : Byte) (f : Bool) :
    (s.subWrite x d f).sp = s.sp := by
  unfold State.subWrite; split <;> rfl
@[simp] theorem State.subWrite_dt (s : State) (x : Reg) (d : Byte) (f : Bool) :
    (s.subWrite x d f).dt = s.dt := by
  unfold State.subWrite; split <;> rfl
@[simp] theorem State.subWrite_st (s : State) (x : Reg) (d : Byte) (f : Bool) :
    (s.subWrite x d f).st = s.st := by
  unfold State.subWrite; split <;> rfl
@[simp] theorem State.subWrite_fb (s : State) (x : Reg) (d : Byte) (f : Bool) :
    (s.subWrite x d f).fb = s.fb := by
  unfold State.subWrite; split <;> rfl
@[simp] theorem State.subWrite_key (s : State) (x : Reg) (d : Byte) (f : Bool) :
    (s.subWrite x d f).key = s.key := by
  unfold State.subWrite; split <;> rfl
@[simp] theorem State.subWrite_lastKey (s : State) (x : Reg) (d : Byte) (f : Bool) :
    (s.subWrite x d f).lastKey = s.lastKey := by
  unfold State.subWrite; split <;> rfl
@[simp] theorem State.subWrite_phase (s : State) (x : Reg) (d : Byte) (f : Bool) :
    (s.subWrite x d f).phase = s.phase := by
  unfold State.subWrite; split <;> rfl
@[simp] theorem State.subWrite_drawFlag (s : State) (x : Reg) (d : Byte) (f : Bool) :
    (s.subWrite x d f).drawFlag = s.drawFlag := by
  unfold State.subWrite; split <;> rfl
@[simp] theorem State.subWrite_status (s : State) (x : Reg) (d : Byte) (f : Bool) :
    (s.subWrite x d f).status = s.status := by
  unfold State.subWrite; split <;> rfl
@[simp] theorem State.subWrite_cfg (s : State) (x : Reg) (d : Byte) (f : Bool) :
    (s.subWrite x d f).cfg = s.cfg := by
  unfold State.subWrite; split <;> rfl
@[simp] theorem State.subWrite_draws (s : State) (x : Reg) (d : Byte) (f : Bool) :
    (s.subWrite x d f).draws = s.draws := by
  unfold State.subWrite; split <;> rfl
@[simp] theorem State.subWrite_stepResult (s : State) (x : Reg) (d : Byte) (f : Bool) :
    (s.subWrite x d f).stepResult = s.stepResult := by
  unfold State.subWrite; split <;> rfl
@[simp] theorem State.subWrite_loadResult (s : State) (x : Reg) (d : Byte) (f : Bool) :
    (s.subWrite x d f).loadResult = s.loadResult := by
  unfold State.subWrite; split <;> rfl
@[simp] theorem State.subWrite_readByte (s : State) (x : Reg) (d : Byte) (f : Bool) (a : Nat) :
    (s.subWrite x d f).readByte a = s.readByte a := by
  simp [State.readByte]
@[simp] theorem State.subWrite_pixel (s : State) (x : Reg) (d : Byte) (f : Bool) (row : Fin 32) (col : Fin 64) :
    (s.subWrite x d f).pixel row col = s.pixel row col := by
  simp [State.pixel]

@[simp] theorem State.shiftWrite_mem (s : State) (x y : Reg) (g : Byte → Byte) (o : Byte → Bool) :
    (s.shiftWrite x y g o).mem = s.mem := by
  unfold State.shiftWrite; split <;> rfl
@[simp] theorem State.shiftWrite_iReg (s : State) (x y : Reg) (g : Byte → Byte) (o : Byte → Bool) :
    (s.shiftWrite x y g o).iReg = s.iReg := by
  unfold State.shiftWrite; split <;> rfl
@[simp] theorem State.shiftWrite_pc (s : State) (x y : Reg) (g : Byte → Byte) (o : Byte → Bool) :
    (s.shiftWrite x y g o).pc = s.pc := by
  unfold State.shiftWrite; split <;> rfl
@[simp] theorem State.shiftWrite_stack (s : State) (x y : Reg) (g : Byte → Byte) (o : Byte → Bool) :
    (s.shiftWrite x y g o).stack = s.stack := by
  unfold State.shiftWrite; split <;> rfl
@[simp] theorem State.shiftWrite_sp (s : State) (x y : Reg) (g : Byte → Byte) (o : Byte → Bool) :
    (s.shiftWrite x y g o).sp = s.sp := by
  unfold State.shiftWrite; split <;> rfl
@[simp] theorem State.shiftWrite_dt (s : State) (x y : Reg) (g : Byte → Byte) (o : Byte → Bool) :
    (s.shiftWrite x y g o).dt = s.dt := by
  unfold State.shiftWrite; split <;> rfl
@[simp] theorem State.shiftWrite_st (s : State) (x y : Reg) (g : Byte → Byte) (o : Byte → Bool) :
    (s.shiftWrite x y g o).st = s.st := by
  unfold State.shiftWrite; split <;> rfl
@[simp] theorem State.shiftWrite_fb (s : State) (x y : Reg) (g : Byte → Byte) (o : Byte → Bool) :
    (s.shiftWrite x y g o).fb = s.fb := by
  unfold State.shiftWrite; split <;> rfl
@[simp] theorem State.shiftWrite_key (s : State) (x y : Reg) (g : Byte → Byte) (o : Byte → Bool) :
    (s.shiftWrite x y g o).key = s.key := by
  unfold State.shiftWrite; split <;> rfl
@[simp] theorem State.shiftWrite_lastKey (s : State) (x y : Reg) (g : Byte → Byte) (o : Byte → Bool) :
    (s.shiftWrite x y g o).lastKey = s.lastKey := by
  unfold State.shiftWrite; split <;> rfl
@[simp] theorem State.shiftWrite_phase (s : State) (x y : Reg) (g : Byte → Byte) (o : Byte → Bool) :
    (s.shiftWrite x y g o).phase = s.phase := by
  unfold State.shiftWrite; split <;> rfl
@[simp] theorem State.shiftWrite_drawFlag (s : State) (x y : Reg) (g : Byte → Byte) (o : Byte → Bool) :
    (s.shiftWrite x y g o).drawFlag = s.drawFlag := by
  unfold State.shiftWrite; split <;> rfl
@[simp] theorem State.shiftWrite_status (s : State) (x y : Reg) (g : Byte → Byte) (o : Byte → Bool) :
    (s.shiftWrite x y g o).status = s.status := by
  unfold State.shiftWrite; split <;> rfl
@[simp] theorem State.shiftWrite_cfg (s : State) (x y : Reg) (g : Byte → Byte) (o : Byte → Bool) :
    (s.shiftWrite x y g o).cfg = s.cfg := by
  unfold State.shiftWrite; split <;> rfl
@[simp] theorem State.shiftWrite_draws (s : State) (x y : Reg) (g : Byte → Byte) (o : Byte → Bool) :
    (s.shiftWrite x y g o).draws = s.draws := by
  unfold State.shiftWrite; split <;> rfl
@[simp] theorem State.shiftWrite_stepResult (s : State) (x y : Reg) (g : Byte → Byte) (o : Byte → Bool) :
    (s.shiftWrite x y g o).stepResult = s.stepResult := by
  unfold State.shiftWrite; split <;> rfl
@[simp] theorem State.shiftWrite_loadResult (s : State) (x y : Reg) (g : Byte → Byte) (o : Byte → Bool) :
    (s.shiftWrite x y g o).loadResult = s.loadResult := by
  unfold State.shiftWrite; split <;> rfl
@[simp] theorem State.shiftWrite_readByte (s : State) (x y : Reg) (g : Byte → Byte) (o : Byte → Bool) (a : Nat) :
    (s.shiftWrite x y g o).readByte a = s.readByte a := by
  simp [State.readByte]
@[simp] theorem State.shiftWrite_pixel (s : State) (x y : Reg) (g : Byte → Byte) (o : Byte → Bool) (row : Fin 32) (col : Fin 64) :
    (s.shiftWrite x y g o).pixel row col = s.pixel row col := by
  simp [State.pixel]

end Sys2Proof.Machine
end

