-- ==== Sys2Proof/Laws/Display.lean ====
section
/-! SUPPORT. What a draw does to the framebuffer, pixel by pixel. -/

namespace Sys2Proof.Machine

/-- Turning one pixel over changes that pixel alone. -/
theorem Framebuffer.get_toggle (f : Framebuffer) (p q : Fin 32 × Fin 64) :
    Framebuffer.get (Framebuffer.toggle f p) q = if q = p then !(Framebuffer.get f p) else Framebuffer.get f q := by
  obtain ⟨pr, pc⟩ := p
  obtain ⟨qr, qc⟩ := q
  by_cases hr : qr = pr
  · subst hr
    by_cases hc : qc = pc
    · subst hc; simp [Framebuffer.get, Framebuffer.toggle]
    · have hv : pc.val ≠ qc.val := fun h => hc (Fin.ext h.symm)
      simp [Framebuffer.get, Framebuffer.toggle, hc, Vector.getElem_set_ne _ _ hv]
  · have hv : pr.val ≠ qr.val := fun h => hr (Fin.ext h.symm)
    simp [Framebuffer.get, Framebuffer.toggle, hr, Vector.getElem_set_ne _ _ hv]

/-- A draw from any collision so far: the framebuffer does not depend on it, and the collision is added to it. -/
theorem foldl_drawPixel (ps : List (Fin 32 × Fin 64)) (f : Framebuffer) (h : Bool) :
    ps.foldl drawPixel (f, h) = ((drawPixels f ps).1, h || (drawPixels f ps).2) := by
  induction ps generalizing f h with
  | nil => simp [drawPixels]
  | cons p ps ih =>
    simp only [drawPixels, List.foldl_cons, drawPixel]
    rw [ih, ih _ (false || _)]
    simp [Bool.or_assoc]

theorem drawPixels_cons (f : Framebuffer) (p : Fin 32 × Fin 64) (ps : List (Fin 32 × Fin 64)) :
    drawPixels f (p :: ps) = ((drawPixels (Framebuffer.toggle f p) ps).1,
      Framebuffer.get f p || (drawPixels (Framebuffer.toggle f p) ps).2) := by
  simp only [drawPixels, List.foldl_cons, drawPixel]
  rw [foldl_drawPixel]
  simp [drawPixels]

/-- Each pixel after a draw of distinct pixels: turned over exactly if it is one of them. -/
theorem drawPixels_get (f : Framebuffer) (ps : List (Fin 32 × Fin 64)) (hn : ps.Nodup) (q : Fin 32 × Fin 64) :
    Framebuffer.get (drawPixels f ps).1 q = if q ∈ ps then !(Framebuffer.get f q) else Framebuffer.get f q := by
  induction ps generalizing f with
  | nil => simp [drawPixels]
  | cons p ps ih =>
    have hp := List.nodup_cons.1 hn
    rw [drawPixels_cons]
    simp only [ih _ hp.2, Framebuffer.get_toggle]
    by_cases hq : q = p
    · subst hq; simp [hp.1]
    · simp [hq]

/-- The collision of a draw of distinct pixels: one of them was on before. -/
theorem drawPixels_hit (f : Framebuffer) (ps : List (Fin 32 × Fin 64)) (hn : ps.Nodup) :
    (drawPixels f ps).2 = true ↔ ∃ q ∈ ps, Framebuffer.get f q = true := by
  induction ps generalizing f with
  | nil => simp [drawPixels]
  | cons p ps ih =>
    have hp := List.nodup_cons.1 hn
    have hother : ∀ q ∈ ps, Framebuffer.get (Framebuffer.toggle f p) q = Framebuffer.get f q := fun q hq => by
      have : q ≠ p := fun h => hp.1 (h ▸ hq)
      simp [Framebuffer.get_toggle, this]
    rw [drawPixels_cons]
    simp only [Bool.or_eq_true, ih _ hp.2, List.mem_cons, exists_eq_or_imp]
    constructor
    · rintro (h | ⟨q, hq, h⟩)
      · exact Or.inl h
      · exact Or.inr ⟨q, hq, by rwa [hother q hq] at h⟩
    · rintro (h | ⟨q, hq, h⟩)
      · exact Or.inl h
      · exact Or.inr ⟨q, hq, by rwa [hother q hq]⟩

/-- Where a pixel is placed, each coordinate is the given one modulo the framebuffer's size. -/
theorem placePixel_some (pol : EdgePolicy) (r c : Nat) (p : Fin 32 × Fin 64) (h : placePixel pol r c = some p) :
    p.1.val = r % 32 ∧ p.2.val = c % 64 := by
  cases pol with
  | clip =>
    simp only [placePixel] at h
    split at h
    · rename_i hrc
      cases h
      simp [Nat.mod_eq_of_lt hrc.1, Nat.mod_eq_of_lt hrc.2]
    · simp at h
  | wrap =>
    simp only [placePixel, Option.some.injEq] at h
    subst h
    simp

theorem mem_rowPixels (pol : EdgePolicy) (r x0 : Nat) (b : Byte) (p : Fin 32 × Fin 64) :
    p ∈ rowPixels pol r x0 b ↔ ∃ c, c < 8 ∧ spriteBit b c = true ∧ placePixel pol r (x0 + c) = some p := by
  simp only [rowPixels, List.mem_filterMap, List.mem_range]
  constructor
  · rintro ⟨c, hc, h⟩
    split at h
    · exact ⟨c, hc, ‹_›, h⟩
    · simp at h
  · rintro ⟨c, hc, hb, h⟩
    exact ⟨c, hc, by simp [hb, h]⟩

/-- The pixels of a sprite: each is some 1 bit of some byte, placed. -/
theorem mem_spritePixels (pol : EdgePolicy) (y0 x0 : Nat) (bs : List Byte) (p : Fin 32 × Fin 64) :
    p ∈ spritePixels pol y0 x0 bs ↔
      ∃ r c, r < bs.length ∧ c < 8 ∧ spriteBit (bs.getD r 0) c = true ∧
        placePixel pol (y0 + r) (x0 + c) = some p := by
  induction bs generalizing y0 with
  | nil => simp [spritePixels]
  | cons b bs ih =>
    simp only [spritePixels, List.mem_append, mem_rowPixels, ih]
    constructor
    · rintro (⟨c, hc, hb, h⟩ | ⟨r, c, hr, hc, hb, h⟩)
      · exact ⟨0, c, by simp, hc, by simpa using hb, by simpa using h⟩
      · refine ⟨r + 1, c, by simpa using hr, hc, by simpa using hb, ?_⟩
        rw [← h]; congr 1; omega
    · rintro ⟨r, c, hr, hc, hb, h⟩
      cases r with
      | zero => exact Or.inl ⟨c, hc, by simpa using hb, by simpa using h⟩
      | succ r =>
        refine Or.inr ⟨r, c, by simpa using hr, hc, by simpa using hb, ?_⟩
        rw [← h]; congr 1; omega

/-- One byte's pixels are distinct: its 8 column offsets are distinct modulo 64 (41_display.md R67). -/
theorem rowPixels_nodup (pol : EdgePolicy) (r x0 : Nat) (b : Byte) : (rowPixels pol r x0 b).Nodup := by
  unfold rowPixels List.Nodup
  rw [List.pairwise_filterMap]
  refine List.Pairwise.imp_of_mem ?_ (List.pairwise_lt_range (n := 8))
  intro c d hc hd hlt p hp q hq hpq
  subst hpq
  rw [List.mem_range] at hc hd
  split at hp
  · split at hq
    · have h1 := (placePixel_some pol r (x0 + c) p hp).2
      have h2 := (placePixel_some pol r (x0 + d) p hq).2
      omega
    · simp at hq
  · simp at hp

theorem rowPixels_row (pol : EdgePolicy) (r x0 : Nat) (b : Byte) (p : Fin 32 × Fin 64)
    (h : p ∈ rowPixels pol r x0 b) : p.1.val = r % 32 := by
  obtain ⟨c, _, _, h⟩ := (mem_rowPixels pol r x0 b p).1 h
  exact (placePixel_some pol r (x0 + c) p h).1

/-- No pixel is turned over twice in a draw of at most 32 rows (41_display.md R67). -/
theorem spritePixels_nodup (pol : EdgePolicy) (y0 x0 : Nat) (bs : List Byte) (h : bs.length ≤ 32) :
    (spritePixels pol y0 x0 bs).Nodup := by
  induction bs generalizing y0 with
  | nil => exact List.nodup_nil
  | cons b bs ih =>
    rw [List.length_cons] at h
    refine List.nodup_append.2 ⟨rowPixels_nodup pol y0 x0 b, ih (y0 + 1) (by omega), ?_⟩
    intro p hp q hq hpq
    subst hpq
    obtain ⟨r, c, hr, _, _, hpl⟩ := (mem_spritePixels pol (y0 + 1) x0 bs p).1 hq
    have h1 := rowPixels_row pol y0 x0 b p hp
    have h2 := (placePixel_some pol (y0 + 1 + r) (x0 + c) p hpl).1
    omega

/-- Framebuffers with the same pixels are equal. -/
theorem Framebuffer.ext_get (f g : Framebuffer) (h : ∀ q, Framebuffer.get f q = Framebuffer.get g q) : f = g := by
  refine Vector.ext fun i hi => Vector.ext fun j hj => ?_
  exact h (⟨i, hi⟩, ⟨j, hj⟩)

/-- Drawing the same distinct pixels twice restores the framebuffer (41_display.md R67). -/
theorem drawPixels_twice (f : Framebuffer) (ps : List (Fin 32 × Fin 64)) (hn : ps.Nodup) :
    (drawPixels (drawPixels f ps).1 ps).1 = f := by
  refine Framebuffer.ext_get _ _ fun q => ?_
  rw [drawPixels_get _ ps hn, drawPixels_get f ps hn]
  by_cases h : q ∈ ps <;> simp [h]

theorem State.pixel_eq_get (s : State) (row : Fin 32) (col : Fin 64) :
    s.pixel row col = Framebuffer.get s.fb (row, col) := rfl

end Sys2Proof.Machine
end

