-- ==== Sys2Proof/Laws/Encoding.lean ====
section
/-! SUPPORT. What each field of a word reads from each placed operand (30_encoding.md R48). -/

namespace Sys2Proof

/-! ### x, y and n -/

theorem extract_placeX (x : Reg) :
    (placeX x).extractLsb' 12 4 = 0#4 ∧ (placeX x).extractLsb' 8 4 = BitVec.ofFin x ∧
    (placeX x).extractLsb' 4 4 = 0#4 ∧ (placeX x).extractLsb' 0 4 = 0#4 ∧ (placeX x).extractLsb' 0 8 = 0#8 := by
  revert x; decide

theorem extract_placeY (y : Reg) :
    (placeY y).extractLsb' 12 4 = 0#4 ∧ (placeY y).extractLsb' 8 4 = 0#4 ∧
    (placeY y).extractLsb' 4 4 = BitVec.ofFin y ∧ (placeY y).extractLsb' 0 4 = 0#4 := by
  revert y; decide

theorem extract_placeN (n : Nat) :
    (placeN n).extractLsb' 12 4 = 0#4 ∧ (placeN n).extractLsb' 8 4 = 0#4 ∧
    (placeN n).extractLsb' 4 4 = 0#4 ∧ (placeN n).extractLsb' 0 4 = BitVec.ofNat 4 n := by
  unfold placeN
  generalize BitVec.ofNat 4 n = m
  revert m; decide

/-! ### nn and nnn -/

theorem extract_placeNN (nn : Byte) :
    (placeNN nn).extractLsb' 12 4 = 0#4 ∧ (placeNN nn).extractLsb' 8 4 = 0#4 ∧
    (placeNN nn).extractLsb' 0 8 = nn := by
  have h := nn.isLt
  refine ⟨?_, ?_, ?_⟩ <;> apply BitVec.eq_of_toNat_eq <;>
    simp [placeNN, BitVec.extractLsb'_toNat, Nat.shiftRight_eq_div_pow] <;> omega

theorem extract_placeNNN (nnn : Addr) :
    (placeNNN nnn).extractLsb' 12 4 = 0#4 ∧ (placeNNN nnn).extractLsb' 0 12 = nnn := by
  have h := nnn.isLt
  refine ⟨?_, ?_⟩ <;> apply BitVec.eq_of_toNat_eq <;>
    simp [placeNNN, BitVec.extractLsb'_toNat, Nat.shiftRight_eq_div_pow] <;> omega

/-! ### No operand reaches its row's fixed bits (R55) -/

theorem placeX_mask (x : Reg) : placeX x &&& 0xF0FF#16 = 0 ∧ placeX x &&& 0xF00F#16 = 0 ∧ placeX x &&& 0xF000#16 = 0 := by
  revert x; decide

theorem placeY_mask (y : Reg) : placeY y &&& 0xF00F#16 = 0 ∧ placeY y &&& 0xF000#16 = 0 := by
  revert y; decide

theorem placeN_mask (n : Nat) : placeN n &&& 0xF000#16 = 0 := by
  unfold placeN
  generalize BitVec.ofNat 4 n = m
  revert m; decide

theorem placeNNN_mask (nnn : Addr) : placeNNN nnn &&& 0xF000#16 = 0 := by
  ext i hi
  interval_cases i <;> simp [placeNNN]

theorem placeNN_mask (nn : Byte) : placeNN nn &&& 0xF000#16 = 0 := by
  ext i hi
  interval_cases i <;> simp [placeNN]

/-- The fixed bits of an encoded word, from the operand's. -/
theorem or_and_of_disjoint (b o m : Word) (hb : b &&& m = b) (ho : o &&& m = 0) : (b ||| o) &&& m = b := by
  rw [BitVec.and_comm, BitVec.and_or_distrib_left, BitVec.and_comm m b, BitVec.and_comm m o, hb, ho]
  simp

end Sys2Proof
end

