-- ==== Sys2Proof/Laws/Step.lean ====
section
/-! SUPPORT. What a step can be, said once: the cases of the step operation, and of the fetch. -/

namespace Sys2Proof.Machine

theorem fetch_ok (s : State) (h : s.pc.toNat + 1 ≤ 0xFFF) :
    fetch s = .ok (s.readByte s.pc.toNat ++ s.readByte (s.pc.toNat + 1)) := memReadWord_ok s _ h

theorem fetch_out (s : State) (h : 0xFFF ≤ s.pc.toNat) :
    fetch s = .error (.addressOutOfRange (if 0xFFF < s.pc.toNat then s.pc.toNat else 0x1000)) :=
  memReadWord_out s _ (by omega)

/-- The decoder's only rejection of a word names the word. -/
theorem decode_error (w : Word) (r : DecodeReject) (h : decode w = .error r) : r = .unknownInstruction w := by
  unfold decode decode8 decodeE decodeF at h
  repeat' split at h
  all_goals first | (cases h; rfl) | (cases h)

theorem step_of_empty (s : State) (h : s.phase = .empty) : step s = .refused .stepBeforeLoad := by
  simp [step, h]

theorem step_of_halted (s : State) (e : FatalError) (a : Word) (hp : s.phase = .loaded)
    (hs : s.status = .halted e a) : step s = stepHalted e s := by
  simp [step, hp, hs]

theorem step_of_running (s : State) (hp : s.phase = .loaded) (hs : s.status = .running) : step s = cycle s := by
  simp [step, hp, hs]

/-- Every next state of a step: the error again, a fetch fault, an unknown word, or the instruction's own. -/
theorem step_next {s t : State} (h : step s = .next t) :
    s.phase = .loaded ∧
    ((∃ e a, s.status = .halted e a ∧ stepHalted e s = .next t) ∨
     (s.status = .running ∧
       ((∃ e, fetch s = .error e ∧ raise e s = .next t) ∨
        (∃ w, fetch s = .ok w ∧
          ((∃ i, decode w = .ok i ∧ exec i s = .next t) ∨
           (∃ r, decode w = .error r ∧ execUnknown w s = .next t)))))) := by
  unfold step at h
  split at h
  · simp at h
  · rename_i hp
    refine ⟨hp, ?_⟩
    split at h
    · rename_i e a hs; exact Or.inl ⟨e, a, hs, h⟩
    · rename_i hs
      refine Or.inr ⟨hs, ?_⟩
      rcases orRaise_next h with ⟨e, he, hr⟩ | ⟨w, hw, hk⟩
      · exact Or.inl ⟨e, he, hr⟩
      · refine Or.inr ⟨w, hw, ?_⟩
        split at hk
        · rename_i i hd; exact Or.inl ⟨i, hd, hk⟩
        · rename_i r hd; exact Or.inr ⟨r, hd, hk⟩

theorem stepHalted_next {e : FatalError} {s t : State} (h : stepHalted e s = .next t) :
    t = s.setStepResult ⟨.error e, false, none⟩ := by
  simpa [stepHalted] using h.symm

theorem execUnknown_next {w : Word} {s t : State} (h : execUnknown w s = .next t) :
    t = s.advance.setStepResult ⟨.ok, false, some ⟨w, s.pc⟩⟩ := by
  simpa [execUnknown] using h.symm

end Sys2Proof.Machine
end

