-- ==== Sys2Proof/Laws/Frames.lean ====
section
/-! SUPPORT. Frames: how the parts of the state compose, and the frames of raising and completing. -/

namespace Sys2Proof.Machine

theorem Part.same_refl (p : Part) (s : State) : p.same s s := by
  cases p <;> simp [Part.same]

theorem Part.same_trans (p : Part) {s t u : State} (h1 : p.same s t) (h2 : p.same t u) : p.same s u := by
  cases p <;> simp_all [Part.same]

theorem ChangesOnly.trans {ps : List Part} {s t u : State} (h1 : ChangesOnly ps s t) (h2 : ChangesOnly ps t u) :
    ChangesOnly ps s u := fun p hp => p.same_trans (h1 p hp) (h2 p hp)

theorem ChangesOnly.mono {ps qs : List Part} {s t : State} (h : ChangesOnly ps s t) (hs : ∀ p ∈ ps, p ∈ qs) :
    ChangesOnly qs s t := fun p hp => h p fun hm => hp (hs p hm)

@[simp] theorem mem_memParts (p : Part) (a len : Nat) : p ∈ memParts a len ↔ ∃ k, k < len ∧ p = .memByte (a + k) := by
  simp [memParts, eq_comm]

@[simp] theorem pixel_mem_pixelParts (row : Fin 32) (col : Fin 64) : Part.pixel row col ∈ pixelParts := by
  simp [pixelParts]

@[simp] theorem reg_mem_regPartsUpTo (r x : Reg) : Part.reg r ∈ regPartsUpTo x ↔ r ≤ x := by
  simp [regPartsUpTo]

/-- Raising answers a next state in which only the status and the step's result differ (60_exceptions.md R107). -/
theorem raise_raisedOnly (e : FatalError) (s : State) : ∃ t, raise e s = .next t ∧ RaisedOnly e s t := by
  refine ⟨_, rfl, rfl, rfl, ?_⟩
  intro p hp
  cases p <;> simp_all [Part.same]

/-- A block write in range changes only its bytes. -/
theorem writeBytes_changesOnly (s : State) (h : Memory.wf s.cfg s.mem) (a : Nat) (bs : List Byte)
    (hr : a + bs.length ≤ memSize) : ChangesOnly (memParts a bs.length) s (s.writeBytes a bs) := by
  intro p hp
  cases p with
  | memByte q =>
    have : ¬ (a ≤ q ∧ q < a + bs.length) := fun hq =>
      hp ((mem_memParts _ _ _).2 ⟨q - a, by omega, by congr 1; omega⟩)
    simp only [Part.same, State.readByte_writeBytes s h a bs hr, if_neg this]
  | _ => simp [Part.same]

end Sys2Proof.Machine
end

