-- ==== Sys2Proof/Laws/Exec.lean ====
section
/-! SUPPORT. What an instruction can answer as a next state, said once for all instructions. -/

namespace Sys2Proof.Machine

/-- The error an instruction raises from a state, with the condition it records (60_exceptions.md R105). -/
def RaiseCause (i : Instr) (s : State) (e : FatalError) : Prop :=
  match e with
  | .addressOutOfRange n => n = (if 0xFFF < s.indexAddr then s.indexAddr else 0x1000) ∧ accessesMemory i = true
  | .stackOverflow a => a = s.pc ∧ s.cfg.stackDepth ≤ s.sp ∧ ∃ nnn, i = .call nnn
  | .stackUnderflow a => a = s.pc ∧ s.sp = 0 ∧ i = .ret

/-- A completed instruction leaves the host's state alone, and touches the screen, memory and the stack only if it is of the
kind that does (10_state.md R19, R23; 20_memory.md R33). -/
structure Completed (i : Instr) (s t : State) : Prop where
  result : t.stepResult = some ⟨.ok, isDraw i, none⟩
  status : t.status = s.status
  cfg : t.cfg = s.cfg
  phase : t.phase = s.phase
  key : t.key = s.key
  loadResult : t.loadResult = s.loadResult
  dt : (∀ x, i ≠ .ldDtVx x) → t.dt = s.dt
  st : (∀ x, i ≠ .ldStVx x) → t.st = s.st
  lastKey : (∀ x, i ≠ .ldVxK x) → t.lastKey = s.lastKey
  screen : isDraw i = false → t.fb = s.fb ∧ t.drawFlag = s.drawFlag
  mem : isStore i = false → t.mem = s.mem
  memWf : Memory.wf s.cfg s.mem → Memory.wf t.cfg t.mem
  stack : usesStack i = false → t.stack = s.stack ∧ t.sp = s.sp
  stackLength : t.stack.length = s.stack.length
  spBound : s.sp ≤ s.cfg.stackDepth → t.sp ≤ s.cfg.stackDepth

/-- Every next state of an instruction: it raised an error with its cause and committed nothing, or it completed. -/
theorem exec_next {i : Instr} {s t : State} (h : exec i s = .next t) :
    (∃ e, RaiseCause i s e ∧ raise e s = .next t) ∨ Completed i s t := by
  cases i
  case ret =>
    have h : execRet s = .next t := h
    rcases popReturn_next h with ⟨h0, hr⟩ | ⟨h0, w, hw, hk⟩
    · exact Or.inl ⟨.stackUnderflow _, ⟨rfl, h0, rfl⟩, hr⟩
    · rw [complete_next hk]
      refine Or.inr ?_
      constructor <;> simp [isDraw, isStore, usesStack]
      omega
  case call nnn =>
    have h : execCall nnn s = .next t := h
    rcases pushReturn_next h with ⟨h0, hr⟩ | ⟨h0, hl, hk⟩
    · exact Or.inl ⟨.stackOverflow _, ⟨rfl, h0, _, rfl⟩, hr⟩
    · rw [complete_next hk]
      refine Or.inr ?_
      constructor <;> simp [isDraw, isStore, usesStack]
      exact fun _ => h0
  case drw x y n =>
    have h : execDrw x y n s = .next t := h
    rcases orRaise_next h with ⟨e, he, hr⟩ | ⟨bs, hb, hk⟩
    · rcases readBlock_cases s.advance s.indexAddr n with ⟨h1, _⟩ | ⟨h1, _⟩
      · rw [h1] at he; cases he
      · rw [h1] at he; cases he
        exact Or.inl ⟨.addressOutOfRange _, ⟨rfl, rfl⟩, hr⟩
    · rw [completeDraw_next hk]
      refine Or.inr ?_
      constructor <;> simp [isDraw, isStore, usesStack, State.drawSprite, State.setFlag]
  case ldB x =>
    have h : execLdB x s = .next t := h
    rcases orRaise_next h with ⟨e, he, hr⟩ | ⟨u, hu, hk⟩
    · rcases writeBlock_cases s.advance s.indexAddr (bcdDigits (s.getV x)) with ⟨h1, _⟩ | ⟨h1, _⟩
      · rw [h1] at he; cases he
      · rw [h1] at he; cases he
        exact Or.inl ⟨.addressOutOfRange _, ⟨rfl, rfl⟩, hr⟩
    · rcases writeBlock_cases s.advance s.indexAddr (bcdDigits (s.getV x)) with ⟨h1, _⟩ | ⟨h1, _⟩
      · rw [h1] at hu; cases hu
        rw [complete_next hk]
        refine Or.inr ?_
        constructor <;> simp [isDraw, isStore, usesStack]
        exact fun hp ha => by
          simpa using State.writeBytes_wf s.advance ⟨hp, by simpa using ha⟩ s.indexAddr (bcdDigits (s.getV x))
      · rw [h1] at hu; cases hu
  case storeRegs x =>
    have h : execStoreRegs x s = .next t := h
    rcases orRaise_next h with ⟨e, he, hr⟩ | ⟨u, hu, hk⟩
    · rcases writeBlock_cases s.advance s.indexAddr (s.regsUpTo x) with ⟨h1, _⟩ | ⟨h1, _⟩
      · rw [h1] at he; cases he
      · rw [h1] at he; cases he
        exact Or.inl ⟨.addressOutOfRange _, ⟨rfl, rfl⟩, hr⟩
    · rcases writeBlock_cases s.advance s.indexAddr (s.regsUpTo x) with ⟨h1, _⟩ | ⟨h1, _⟩
      · rw [h1] at hu; cases hu
        rw [complete_next hk]
        refine Or.inr ?_
        constructor <;> simp [isDraw, isStore, usesStack]
        exact fun hp ha => by
          simpa using State.writeBytes_wf s.advance ⟨hp, by simpa using ha⟩ s.indexAddr (s.regsUpTo x)
      · rw [h1] at hu; cases hu
  case loadRegs x =>
    have h : execLoadRegs x s = .next t := h
    rcases orRaise_next h with ⟨e, he, hr⟩ | ⟨bs, hb, hk⟩
    · rcases readBlock_cases s.advance s.indexAddr (x.val + 1) with ⟨h1, _⟩ | ⟨h1, _⟩
      · rw [h1] at he; cases he
      · rw [h1] at he; cases he
        exact Or.inl ⟨.addressOutOfRange _, ⟨rfl, rfl⟩, hr⟩
    · rw [complete_next hk]
      refine Or.inr ?_
      constructor <;> simp [isDraw, isStore, usesStack]
  case cls =>
    rw [completeDraw_next (show completeDraw (s.advance.setFb blankFb) = .next t from h)]
    refine Or.inr ?_
    constructor <;> simp [isDraw, isStore, usesStack]
  case ldVxK x =>
    have h : execLdVxK x s = .next t := h
    unfold execLdVxK at h
    split at h
    all_goals
      rw [complete_next h]
      refine Or.inr ?_
      constructor <;> simp [isDraw, isStore, usesStack]
  all_goals
    have h := complete_next (show complete _ = .next t from h)
    rw [h]
    refine Or.inr ?_
    constructor <;>
      simp [isDraw, isStore, usesStack, State.skipIf_eq, State.flagThenResult, State.setFlag, drawRand]

end Sys2Proof.Machine
end

