-- ==== Sys2Proof/Laws/PerInstr.lean ====
section
/-! SUPPORT. Statements made of every instruction, one lemma per constructor of Instr. -/

namespace Sys2Proof.Laws

/-- The encoder stays inside the instruction's row of the opcode map: the word of a well-formed instruction agrees with the
row's fixed bits (30_encoding.md R55). -/
def EncodesInRow.Statement (i : Instr) : Prop := i.wellFormed = true → i.row.matches (encode i) = true

theorem EncodesInRow.of_masks {i : Instr} (str : String) (b m o : Word) (hr : i.row = ⟨str, b, m⟩)
    (ho : i.operandBits = o) (hb : b &&& m = b) (hm : o &&& m = 0) : EncodesInRow.Statement i := fun _ => by
  rw [OpcodeRow.matches, encode, hr, ho]
  exact decide_eq_true (or_and_of_disjoint b o m hb hm)

theorem and_or_zero (a b m : Word) (ha : a &&& m = 0) (hb : b &&& m = 0) : (a ||| b) &&& m = 0 := by
  rw [BitVec.and_comm, BitVec.and_or_distrib_left, BitVec.and_comm m a, BitVec.and_comm m b, ha, hb]
  simp

theorem EncodesInRow.cls : Statement .cls :=
  of_masks _ _ _ _ rfl rfl (by decide) (by decide)

theorem EncodesInRow.ret : Statement .ret :=
  of_masks _ _ _ _ rfl rfl (by decide) (by decide)

theorem EncodesInRow.jp (nnn : Addr) : Statement (.jp nnn) :=
  of_masks _ _ _ _ rfl rfl (by decide) (placeNNN_mask nnn)

theorem EncodesInRow.call (nnn : Addr) : Statement (.call nnn) :=
  of_masks _ _ _ _ rfl rfl (by decide) (placeNNN_mask nnn)

theorem EncodesInRow.seImm (x : Reg) (nn : Byte) : Statement (.seImm x nn) :=
  of_masks _ _ _ _ rfl rfl (by decide) (and_or_zero _ _ _ (placeX_mask x).2.2 (placeNN_mask nn))

theorem EncodesInRow.sneImm (x : Reg) (nn : Byte) : Statement (.sneImm x nn) :=
  of_masks _ _ _ _ rfl rfl (by decide) (and_or_zero _ _ _ (placeX_mask x).2.2 (placeNN_mask nn))

theorem EncodesInRow.seReg (x y : Reg) : Statement (.seReg x y) :=
  of_masks _ _ _ _ rfl rfl (by decide) (and_or_zero _ _ _ (placeX_mask x).2.1 (placeY_mask y).1)

theorem EncodesInRow.ldImm (x : Reg) (nn : Byte) : Statement (.ldImm x nn) :=
  of_masks _ _ _ _ rfl rfl (by decide) (and_or_zero _ _ _ (placeX_mask x).2.2 (placeNN_mask nn))

theorem EncodesInRow.addImm (x : Reg) (nn : Byte) : Statement (.addImm x nn) :=
  of_masks _ _ _ _ rfl rfl (by decide) (and_or_zero _ _ _ (placeX_mask x).2.2 (placeNN_mask nn))

theorem EncodesInRow.ldReg (x y : Reg) : Statement (.ldReg x y) :=
  of_masks _ _ _ _ rfl rfl (by decide) (and_or_zero _ _ _ (placeX_mask x).2.1 (placeY_mask y).1)

theorem EncodesInRow.orReg (x y : Reg) : Statement (.orReg x y) :=
  of_masks _ _ _ _ rfl rfl (by decide) (and_or_zero _ _ _ (placeX_mask x).2.1 (placeY_mask y).1)

theorem EncodesInRow.andReg (x y : Reg) : Statement (.andReg x y) :=
  of_masks _ _ _ _ rfl rfl (by decide) (and_or_zero _ _ _ (placeX_mask x).2.1 (placeY_mask y).1)

theorem EncodesInRow.xorReg (x y : Reg) : Statement (.xorReg x y) :=
  of_masks _ _ _ _ rfl rfl (by decide) (and_or_zero _ _ _ (placeX_mask x).2.1 (placeY_mask y).1)

theorem EncodesInRow.addReg (x y : Reg) : Statement (.addReg x y) :=
  of_masks _ _ _ _ rfl rfl (by decide) (and_or_zero _ _ _ (placeX_mask x).2.1 (placeY_mask y).1)

theorem EncodesInRow.subReg (x y : Reg) : Statement (.subReg x y) :=
  of_masks _ _ _ _ rfl rfl (by decide) (and_or_zero _ _ _ (placeX_mask x).2.1 (placeY_mask y).1)

theorem EncodesInRow.shr (x y : Reg) : Statement (.shr x y) :=
  of_masks _ _ _ _ rfl rfl (by decide) (and_or_zero _ _ _ (placeX_mask x).2.1 (placeY_mask y).1)

theorem EncodesInRow.subn (x y : Reg) : Statement (.subn x y) :=
  of_masks _ _ _ _ rfl rfl (by decide) (and_or_zero _ _ _ (placeX_mask x).2.1 (placeY_mask y).1)

theorem EncodesInRow.shl (x y : Reg) : Statement (.shl x y) :=
  of_masks _ _ _ _ rfl rfl (by decide) (and_or_zero _ _ _ (placeX_mask x).2.1 (placeY_mask y).1)

theorem EncodesInRow.sneReg (x y : Reg) : Statement (.sneReg x y) :=
  of_masks _ _ _ _ rfl rfl (by decide) (and_or_zero _ _ _ (placeX_mask x).2.1 (placeY_mask y).1)

theorem EncodesInRow.ldI (nnn : Addr) : Statement (.ldI nnn) :=
  of_masks _ _ _ _ rfl rfl (by decide) (placeNNN_mask nnn)

theorem EncodesInRow.jpV0 (nnn : Addr) : Statement (.jpV0 nnn) :=
  of_masks _ _ _ _ rfl rfl (by decide) (placeNNN_mask nnn)

theorem EncodesInRow.rnd (x : Reg) (nn : Byte) : Statement (.rnd x nn) :=
  of_masks _ _ _ _ rfl rfl (by decide) (and_or_zero _ _ _ (placeX_mask x).2.2 (placeNN_mask nn))

theorem EncodesInRow.drw (x y : Reg) (n : Nat) : Statement (.drw x y n) :=
  of_masks _ _ _ _ rfl rfl (by decide) (and_or_zero _ _ _ (and_or_zero _ _ _ (placeX_mask x).2.2 (placeY_mask y).2) (placeN_mask n))

theorem EncodesInRow.skp (x : Reg) : Statement (.skp x) :=
  of_masks _ _ _ _ rfl rfl (by decide) ((placeX_mask x).1)

theorem EncodesInRow.sknp (x : Reg) : Statement (.sknp x) :=
  of_masks _ _ _ _ rfl rfl (by decide) ((placeX_mask x).1)

theorem EncodesInRow.ldVxDt (x : Reg) : Statement (.ldVxDt x) :=
  of_masks _ _ _ _ rfl rfl (by decide) ((placeX_mask x).1)

theorem EncodesInRow.ldVxK (x : Reg) : Statement (.ldVxK x) :=
  of_masks _ _ _ _ rfl rfl (by decide) ((placeX_mask x).1)

theorem EncodesInRow.ldDtVx (x : Reg) : Statement (.ldDtVx x) :=
  of_masks _ _ _ _ rfl rfl (by decide) ((placeX_mask x).1)

theorem EncodesInRow.ldStVx (x : Reg) : Statement (.ldStVx x) :=
  of_masks _ _ _ _ rfl rfl (by decide) ((placeX_mask x).1)

theorem EncodesInRow.addI (x : Reg) : Statement (.addI x) :=
  of_masks _ _ _ _ rfl rfl (by decide) ((placeX_mask x).1)

theorem EncodesInRow.ldF (x : Reg) : Statement (.ldF x) :=
  of_masks _ _ _ _ rfl rfl (by decide) ((placeX_mask x).1)

theorem EncodesInRow.ldB (x : Reg) : Statement (.ldB x) :=
  of_masks _ _ _ _ rfl rfl (by decide) ((placeX_mask x).1)

theorem EncodesInRow.storeRegs (x : Reg) : Statement (.storeRegs x) :=
  of_masks _ _ _ _ rfl rfl (by decide) ((placeX_mask x).1)

theorem EncodesInRow.loadRegs (x : Reg) : Statement (.loadRegs x) :=
  of_masks _ _ _ _ rfl rfl (by decide) ((placeX_mask x).1)

end Sys2Proof.Laws
end

