-- ==== Sys2Proof/Tests/Slice0.lean ====
section
/-! SUPPORT. The model's own tests: the checks of WellFormed refuse ill-formed terms, words decode as the spec's encodings say,
single steps give the results of spec/95_test_vectors.md, and every statement with hypotheses has a state that meets them. The
vectors' conventions are that file's: construction state, phase Loaded, the word at 0x200 unless said otherwise, default
parameters unless said otherwise. -/

namespace Sys2Proof.Tests

open Sys2Proof.Machine

/-! ### Helpers -/

/-- A field of the state after a result, if there is one. -/
def got {α : Type} (r : Result) (f : State → α) : Option α :=
  match r with
  | .next t => some (f t)
  | .fault _ => none
  | .refused _ => none

/-- The construction state with the default parameters. -/
def base : State := State.reset

/-- The construction state with a program loaded and pc elsewhere. -/
def ready (pc : Word) : State := (base.setPhase .loaded).setPc pc

/-- One step on `s` with a word placed at its pc. -/
def run1 (w : Nat) (s : State) : Result := step (s.withFetchWord 16 w)

/-- The state with other policies. -/
def withPolicies (s : State) (e : EdgePolicy) (b : SubFlagPolicy) (h : ShiftPolicy) : State :=
  { s with cfg := { s.cfg with edgePolicy := e, subFlagPolicy := b, shiftPolicy := h } }

/-- The pixels that are on. -/
def lit (s : State) : List (Nat × Nat) :=
  (List.range 32).flatMap fun r => (List.range 64).filterMap fun c =>
    if (s.fb.toList.getD r (Vector.replicate 64 false)).toList.getD c false then some (r, c) else none

/-- The state with one pixel on. -/
def litAt (s : State) (row : Fin 32) (col : Fin 64) : State := s.setFb (Framebuffer.toggle s.fb (row, col))

/-- What a halted step leaves: the status and pc. -/
def halt (t : State) : Status × Word := (t.status, t.pc)

/-! ### The checks of WellFormed refuse ill-formed terms -/

/-- A row count of 16 does not fit the nibble (30_encoding.md R48). -/
theorem test_wellFormed_refuses_sixteen_rows : (Instr.drw 0 1 16).wellFormed = false := by decide

theorem test_wellFormed_accepts_fifteen_rows : (Instr.drw 0 1 15).wellFormed = true := by decide

/-- A stack of 15 entries is too small (10_state.md R19). -/
theorem test_config_refuses_small_stack : ¬ Config.WellFormed { defaultConfig with stackDepth := 15 } := by decide

/-- A font whose last byte lies at 0x200 is outside the reserved region (20_memory.md R41). -/
theorem test_config_refuses_high_font : ¬ Config.WellFormed { defaultConfig with fontBase := 0x1B1 } := by decide

theorem test_config_accepts_defaults : Config.WellFormed defaultConfig := by decide

/-! ### Decoding: each constructor's word, written out bit by bit from its row and format (30_encoding.md R48, R55) -/

theorem test_decode_cls : decode 0b0000000011100000#16 = .ok (.cls) := by decide

theorem test_decode_ret : decode 0b0000000011101110#16 = .ok (.ret) := by decide

theorem test_decode_jp : decode 0b0001101010111100#16 = .ok (.jp 0xABC#12) := by decide

theorem test_decode_call : decode 0b0010101010111100#16 = .ok (.call 0xABC#12) := by decide

theorem test_decode_seImm : decode 0b0011101001111111#16 = .ok (.seImm 10 0x7F#8) := by decide

theorem test_decode_sneImm : decode 0b0100101001111111#16 = .ok (.sneImm 10 0x7F#8) := by decide

theorem test_decode_seReg : decode 0b0101000100100000#16 = .ok (.seReg 1 2) := by decide

theorem test_decode_ldImm : decode 0b0110101000101111#16 = .ok (.ldImm 10 0x2F#8) := by decide

theorem test_decode_addImm : decode 0b0111001011111111#16 = .ok (.addImm 2 0xFF#8) := by decide

theorem test_decode_ldReg : decode 0b1000000100100000#16 = .ok (.ldReg 1 2) := by decide

theorem test_decode_orReg : decode 0b1000000100100001#16 = .ok (.orReg 1 2) := by decide

theorem test_decode_andReg : decode 0b1000000100100010#16 = .ok (.andReg 1 2) := by decide

theorem test_decode_xorReg : decode 0b1000000100100011#16 = .ok (.xorReg 1 2) := by decide

theorem test_decode_addReg : decode 0b1000000100100100#16 = .ok (.addReg 1 2) := by decide

theorem test_decode_subReg : decode 0b1000000100100101#16 = .ok (.subReg 1 2) := by decide

theorem test_decode_shr : decode 0b1000000100100110#16 = .ok (.shr 1 2) := by decide

theorem test_decode_subn : decode 0b1000000100100111#16 = .ok (.subn 1 2) := by decide

theorem test_decode_shl : decode 0b1000000100101110#16 = .ok (.shl 1 2) := by decide

theorem test_decode_sneReg : decode 0b1001000100100000#16 = .ok (.sneReg 1 2) := by decide

theorem test_decode_ldI : decode 0b1010000100100011#16 = .ok (.ldI 0x123#12) := by decide

theorem test_decode_jpV0 : decode 0b1011000100100011#16 = .ok (.jpV0 0x123#12) := by decide

theorem test_decode_rnd : decode 0b1100001100001111#16 = .ok (.rnd 3 0x0F#8) := by decide

theorem test_decode_drw : decode 0b1101111100000001#16 = .ok (.drw 15 0 1) := by decide

theorem test_decode_skp : decode 0b1110010110011110#16 = .ok (.skp 5) := by decide

theorem test_decode_sknp : decode 0b1110010110100001#16 = .ok (.sknp 5) := by decide

theorem test_decode_ldVxDt : decode 0b1111001100000111#16 = .ok (.ldVxDt 3) := by decide

theorem test_decode_ldVxK : decode 0b1111000100001010#16 = .ok (.ldVxK 1) := by decide

theorem test_decode_ldDtVx : decode 0b1111001000010101#16 = .ok (.ldDtVx 2) := by decide

theorem test_decode_ldStVx : decode 0b1111001000011000#16 = .ok (.ldStVx 2) := by decide

theorem test_decode_addI : decode 0b1111000100011110#16 = .ok (.addI 1) := by decide

theorem test_decode_ldF : decode 0b1111000100101001#16 = .ok (.ldF 1) := by decide

theorem test_decode_ldB : decode 0b1111000100110011#16 = .ok (.ldB 1) := by decide

theorem test_decode_storeRegs : decode 0b1111111101010101#16 = .ok (.storeRegs 15) := by decide

theorem test_decode_loadRegs : decode 0b1111001001100101#16 = .ok (.loadRegs 2) := by decide

/-- Strict decoding: neighbours of instructions are no instructions (95_test_vectors.md 2.6, 2.2, 2.3, 2.5; decision D15). -/
theorem test_decode_rejects : [0x0000#16, 0x00E1#16, 0x0123#16, 0x5121#16, 0x9128#16, 0x8128#16, 0x812F#16, 0xE5A0#16,
    0xF0FF#16].all (fun w => decide (decode w = .error (.unknownInstruction w))) = true := by decide

/-- Two bytes, the most significant first, and the rest of the bytes comes back (20_memory.md R36). -/
theorem test_decodeBytes_bigEndian : decodeBytes [0xA1, 0x23, 0x45] = .ok (.ldI 0x123#12, [0x45]) := by decide

theorem test_decodeBytes_needs_two : decodeBytes [0xA1] = .error .tooFewBytes := by decide

/-- The opcode map's rows do not overlap (30_encoding.md R55). -/
theorem test_opcode_rows_disjoint :
    [Instr.cls, .ret, .jp 0, .call 0, .seImm 0 0, .sneImm 0 0, .seReg 0 0, .ldImm 0 0, .addImm 0 0, .ldReg 0 0, .orReg 0 0,
      .andReg 0 0, .xorReg 0 0, .addReg 0 0, .subReg 0 0, .shr 0 0, .subn 0 0, .shl 0 0, .sneReg 0 0, .ldI 0, .jpV0 0,
      .rnd 0 0, .drw 0 0 0, .skp 0, .sknp 0, .ldVxDt 0, .ldVxK 0, .ldDtVx 0, .ldStVx 0, .addI 0, .ldF 0, .ldB 0,
      .storeRegs 0, .loadRegs 0].Pairwise
      (fun i j => (i.row.mask &&& j.row.mask) &&& i.row.bits ≠ (i.row.mask &&& j.row.mask) &&& j.row.bits) := by decide

/-! ### Single steps (spec/95_test_vectors.md) -/

/-! 2.1 Display -/

theorem test_cls_clears :
    got (run1 0x00E0 (litAt (litAt (ready 0x200) 0 0) 31 63)) (fun t => (lit t, t.drawFlag, t.pc)) = some ([], true, 0x202) := by decide

theorem test_cls_on_clear_screen_sets_flag :
    got (run1 0x00E0 (ready 0x200)) (fun t => (t.drawFlag, t.stepResult)) = some (true, some ⟨.ok, true, none⟩) := by decide

theorem test_drw_glyph0 :
    got (run1 0xD015 (((ready 0x200).setV vf 7).setI 0x50)) (fun t => (lit t, t.getV vf)) = some ([(0, 0), (0, 1), (0, 2), (0, 3), (1, 0), (1, 3), (2, 0), (2, 3), (3, 0), (3, 3), (4, 0), (4, 1), (4, 2), (4, 3)], 0) := by decide

theorem test_drw_collides :
    got (run1 0xD011 (litAt (((ready 0x200).setI 0x300).writeByte 0x300 0xC0) 0 0)) (fun t => (lit t, t.getV vf)) = some ([(0, 1)], 1) := by decide

/-! The policies and edges of the draw, on the shared operations (2.1) -/

theorem test_draw_clips_and_wraps :
    (spritePixels .clip 0 60 [0xFF]).map (fun p => (p.1.val, p.2.val)) = [(0, 60), (0, 61), (0, 62), (0, 63)] ∧
    (spritePixels .wrap 0 60 [0xFF]).map (fun p => (p.1.val, p.2.val)) =
      [(0, 60), (0, 61), (0, 62), (0, 63), (0, 0), (0, 1), (0, 2), (0, 3)] ∧
    (spritePixels .clip 31 0 [0x80, 0x80]).map (fun p => (p.1.val, p.2.val)) = [(31, 0)] ∧
    (spritePixels .wrap 31 0 [0x80, 0x80]).map (fun p => (p.1.val, p.2.val)) = [(31, 0), (0, 0)] := by decide

theorem test_draw_start_wraps : startColumn 0x44 = 4 ∧ startRow 0x23 = 3 := by decide

/-! 2.2 Control flow -/

theorem test_ret_pops :
    got (run1 0x00EE ((((ready 0x200).setSp 2).setStackEntry 0 0x202).setStackEntry 1 0x346)) (fun t => (t.pc, t.sp)) = some (0x346, 1) := by decide

theorem test_ret_underflow :
    got (run1 0x00EE (ready 0x200)) (fun t => halt t) = some (.halted (.stackUnderflow 0x200) 0x200, 0x200) := by decide

theorem test_jp :
    got (run1 0x1ABC (ready 0x200)) (fun t => t.pc) = some (0xABC) := by decide

theorem test_call_pushes :
    got (run1 0x2ABC ((ready 0x300).setSp 15)) (fun t => (t.pc, t.sp, t.stack[15]?)) = some (0xABC, 16, some 0x302) := by decide

theorem test_call_overflow :
    got (run1 0x2ABC ((ready 0x300).setSp 16)) (fun t => (halt t, t.sp)) = some ((.halted (.stackOverflow 0x300) 0x300, 0x300), 16) := by decide

theorem test_seImm_skips :
    got (run1 0x3A7F ((ready 0x200).setV 10 0x7F)) (fun t => t.pc) = some (0x204) := by decide

theorem test_seImm_at_the_end_of_memory :
    got (run1 0x3000 (ready 0xFFC)) (fun t => t.pc) = some (0x1000) := by decide

theorem test_sneImm_stays :
    got (run1 0x4A7F ((ready 0x200).setV 10 0x7F)) (fun t => t.pc) = some (0x202) := by decide

theorem test_sneImm_skips :
    got (run1 0x4A7F (ready 0x200)) (fun t => t.pc) = some (0x204) := by decide

theorem test_seReg_skips :
    got (run1 0x5120 (((ready 0x200).setV 1 3).setV 2 3)) (fun t => t.pc) = some (0x204) := by decide

theorem test_seReg_stays :
    got (run1 0x5120 (((ready 0x200).setV 1 3).setV 2 4)) (fun t => t.pc) = some (0x202) := by decide

theorem test_sneReg_skips :
    got (run1 0x9120 (((ready 0x200).setV 1 3).setV 2 4)) (fun t => t.pc) = some (0x204) := by decide

theorem test_sneReg_stays :
    got (run1 0x9120 (((ready 0x200).setV 1 3).setV 2 3)) (fun t => t.pc) = some (0x202) := by decide

theorem test_jpV0_not_masked :
    got (run1 0xBFFF ((ready 0x200).setV 0 0xFF)) (fun t => t.pc) = some (0x10FE) := by decide

theorem test_jpV0 :
    got (run1 0xB123 ((ready 0x200).setV 0 0x10)) (fun t => t.pc) = some (0x133) := by decide

/-! 2.3 Register loads and the ALU -/

theorem test_ldImm :
    got (run1 0x6A2F (ready 0x200)) (fun t => (t.getV 10, t.pc)) = some (0x2F, 0x202) := by decide

theorem test_addImm_wraps_without_flag :
    got (run1 0x72FF (((ready 0x200).setV 2 1).setV vf 7)) (fun t => (t.getV 2, t.getV vf)) = some (0, 7) := by decide

theorem test_addImm_of_vf :
    got (run1 0x7F01 ((ready 0x200).setV vf 0xFF)) (fun t => t.getV vf) = some (0) := by decide

theorem test_ldReg :
    got (run1 0x8120 (((ready 0x200).setV 1 0x11).setV 2 0x22)) (fun t => t.getV 1) = some (0x22) := by decide

theorem test_orReg_keeps_vf :
    got (run1 0x8121 ((((ready 0x200).setV 1 0x0F).setV 2 0xF0).setV vf 5)) (fun t => (t.getV 1, t.getV vf)) = some (0xFF, 5) := by decide

theorem test_andReg_keeps_vf :
    got (run1 0x8122 ((((ready 0x200).setV 1 0x3C).setV 2 0x0F).setV vf 5)) (fun t => (t.getV 1, t.getV vf)) = some (0x0C, 5) := by decide

theorem test_xorReg :
    got (run1 0x8123 (((ready 0x200).setV 1 0x3C).setV 2 0x0F)) (fun t => t.getV 1) = some (0x33) := by decide

theorem test_addReg_of_vf_keeps_the_sum :
    got (run1 0x8F14 (((ready 0x200).setV vf 0xFF).setV 1 5)) (fun t => t.getV vf) = some (4) := by decide

theorem test_addReg_from_vf :
    got (run1 0x81F4 (((ready 0x200).setV 1 0x10).setV vf 0xF0)) (fun t => (t.getV 1, t.getV vf)) = some (0, 1) := by decide

theorem test_subReg_noFlag :
    got (run1 0x8125 ((((ready 0x200).setV 1 0x10).setV 2 0x20).setV vf 7)) (fun t => (t.getV 1, t.getV vf)) = some (0xF0, 7) := by decide

theorem test_subReg_notBorrow_of_vf :
    got (run1 0x8F15 (withPolicies (((ready 0x200).setV vf 5).setV 1 3) .clip .notBorrow .inPlaceNoFlag)) (fun t => t.getV vf) = some (1) := by decide

theorem test_subn_noFlag :
    got (run1 0x8127 ((((ready 0x200).setV 1 5).setV 2 0x20).setV vf 7)) (fun t => (t.getV 1, t.getV vf)) = some (0x1B, 7) := by decide

theorem test_subn_notBorrow :
    got (run1 0x8127 (withPolicies ((((ready 0x200).setV 1 0x20).setV 2 0x10).setV vf 7) .clip .notBorrow .inPlaceNoFlag)) (fun t => (t.getV 1, t.getV vf)) = some (0xF0, 0) := by decide

theorem test_shr_inPlaceNoFlag :
    got (run1 0x8126 ((((ready 0x200).setV 1 5).setV 2 0x80).setV vf 7)) (fun t => (t.getV 1, t.getV vf)) = some (2, 7) := by decide

theorem test_shr_fromVy :
    got (run1 0x8126 (withPolicies ((((ready 0x200).setV 1 5).setV 2 0x80).setV vf 7) .clip .noFlag .fromVyFlag)) (fun t => (t.getV 1, t.getV vf)) = some (0x40, 0) := by decide

theorem test_shl_inPlaceFlag :
    got (run1 0x812E (withPolicies ((((ready 0x200).setV 1 0x81).setV 2 1).setV vf 7) .clip .noFlag .inPlaceFlag)) (fun t => (t.getV 1, t.getV vf)) = some (2, 1) := by decide

theorem test_shl_inPlaceNoFlag :
    got (run1 0x812E ((((ready 0x200).setV 1 0x81).setV 2 1).setV vf 7)) (fun t => (t.getV 1, t.getV vf)) = some (2, 7) := by decide

/-- A mask of 0 gives 0 whatever the oracle draws (43_alu.md R90). -/
theorem test_rnd_masked : ∀ b : Byte, b &&& 0x00 = 0 := by decide

theorem test_rnd_counts_the_draw :
    got (run1 0xC300 ((ready 0x200).setV 3 0x55)) (fun t => (t.draws, t.pc)) = some (1, 0x202) := by decide

/-! 2.4 Index register and memory -/

theorem test_ldI :
    got (run1 0xA123 (ready 0x200)) (fun t => t.iReg) = some (0x123) := by decide

theorem test_addI_no_fault :
    got (run1 0xF11E ((((ready 0x200).setV 1 1).setV vf 7).setI 0xFFF)) (fun t => (t.iReg, t.getV vf)) = some (0x1000, 7) := by decide

theorem test_addI_wraps :
    got (run1 0xF11E (((ready 0x200).setV 1 2).setI 0xFFFF)) (fun t => t.iReg) = some (1) := by decide

theorem test_ldF_ignores_high_nibble :
    got (run1 0xF129 ((ready 0x200).setV 1 0x1A)) (fun t => t.iReg) = some (0x082) := by decide

theorem test_ldF_last :
    got (run1 0xF129 ((ready 0x200).setV 1 0x0F)) (fun t => t.iReg) = some (0x09B) := by decide

theorem test_ldB_at_the_end :
    got (run1 0xF133 (((ready 0x200).setV 1 0x7B).setI 0xFFD)) (fun t => (t.readByte 0xFFD, t.readByte 0xFFE, t.readByte 0xFFF, t.iReg)) = some (1, 2, 3, 0xFFD) := by decide

theorem test_ldB_beyond :
    got (run1 0xF133 (((ready 0x200).setV 1 0x7B).setI 0x1234)) (fun t => (halt t, t.mem.length)) = some ((.halted (.addressOutOfRange 0x1234) 0x200, 0x200), 2) := by decide

theorem test_storeRegs_keeps_I :
    got (run1 0xF055 (((ready 0x200).setV 0 0xAA).setI 0x400)) (fun t => (t.readByte 0x400, t.iReg)) = some (0xAA, 0x400) := by decide

theorem test_storeRegs_beyond :
    got (run1 0xFF55 (((ready 0x200).setV 0 1).setI 0xFF1)) (fun t => (halt t, t.readByte 0xFF1)) = some ((.halted (.addressOutOfRange 0x1000) 0x200, 0x200), 0) := by decide

theorem test_loadRegs :
    got (run1 0xF265 ((((ready 0x200).setV 3 0x55).setI 0x400).writeBytes 0x400 [9, 8, 7, 6])) (fun t => (t.getV 0, t.getV 1, t.getV 2, t.getV 3)) = some (9, 8, 7, 0x55) := by decide

theorem test_loadRegs_beyond :
    got (run1 0xF065 ((ready 0x200).setI 0x1000)) (fun t => halt t) = some (.halted (.addressOutOfRange 0x1000) 0x200, 0x200) := by decide

/-! 2.5 Keys and timers -/

theorem test_skp_pressed :
    got (run1 0xE59E (((ready 0x200).setV 5 0x0A).setKeyState 10 true)) (fun t => t.pc) = some (0x204) := by decide

theorem test_skp_no_such_key :
    got (run1 0xE59E (((ready 0x200).setV 5 0x1A).setKeyState 10 true)) (fun t => t.pc) = some (0x202) := by decide

theorem test_sknp_pressed :
    got (run1 0xE5A1 (((ready 0x200).setV 5 0x0A).setKeyState 10 true)) (fun t => t.pc) = some (0x202) := by decide

theorem test_sknp_no_such_key :
    got (run1 0xE5A1 ((ready 0x200).setV 5 0x10)) (fun t => t.pc) = some (0x204) := by decide

theorem test_ldVxDt :
    got (run1 0xF307 ((ready 0x200).setDt 0x3C)) (fun t => t.getV 3) = some (0x3C) := by decide

theorem test_ldVxK_waits :
    got (run1 0xF10A (ready 0x210)) (fun t => (t.pc, t.stepResult)) = some (0x210, some ⟨.ok, false, none⟩) := by decide

theorem test_ldVxK_consumes :
    got (run1 0xF10A ((ready 0x210).setLastKey (some 7))) (fun t => (t.getV 1, t.lastKey, t.pc)) = some (7, none, 0x212) := by decide

theorem test_ldDtVx :
    got (run1 0xF215 ((ready 0x200).setV 2 0xFF)) (fun t => (t.dt, t.pc)) = some (0xFF, 0x202) := by decide

theorem test_ldStVx :
    got (run1 0xF218 ((ready 0x200).setV 2 0x05)) (fun t => t.st) = some (5) := by decide

/-! 2.6 Fetch and unknown words -/

theorem test_unknown_word :
    got (run1 0x0123 (ready 0x200)) (fun t => (t.pc, t.stepResult)) = some (0x202, some ⟨.ok, false, some ⟨0x0123, 0x200⟩⟩) := by decide

theorem test_fetch_at_odd_address :
    got (run1 0x6005 (ready 0x201)) (fun t => (t.getV 0, t.pc)) = some (5, 0x203) := by decide

theorem test_fetch_last_word :
    got (run1 0x1200 (ready 0xFFE)) (fun t => t.pc) = some (0x200) := by decide

theorem test_fetch_at_fff :
    got (run1 0x1200 (ready 0xFFF)) (fun t => halt t) = some (.halted (.addressOutOfRange 0x1000) 0xFFF, 0xFFF) := by decide

theorem test_fetch_beyond :
    got (run1 0x1200 (ready 0x10FE)) (fun t => halt t) = some (.halted (.addressOutOfRange 0x10FE) 0x10FE, 0x10FE) := by decide

/-! 2.7 to 2.9 The halted state and the host's operations -/

theorem test_step_when_halted :
    got (step ((ready 0x200).setStatus (.halted (.stackUnderflow 0x200) 0x200))) (fun t => (halt t, t.stepResult)) =
      some ((.halted (.stackUnderflow 0x200) 0x200, 0x200), some ⟨.error (.stackUnderflow 0x200), false, none⟩) := by decide

theorem test_tick_floors : got (tickTimers ((ready 0x200).setDt 1)) (fun t => (t.dt, t.st)) = some (0, 0) := by decide

theorem test_tick_counts :
    got (tickTimers (((ready 0x200).setDt 0xFF).setSt 2)) (fun t => (t.dt, t.st)) = some (0xFE, 1) := by decide

theorem test_setKey_records : got (setKey 4 true base) (fun t => (t.key[4], t.lastKey)) = some (true, some 4) := by decide

theorem test_setKey_repeat :
    got (setKey 4 true (base.setKeyState 4 true)) (fun t => (t.key[4], t.lastKey)) = some (true, none) := by decide

theorem test_setKey_release :
    got (setKey 4 false ((base.setKeyState 4 true).setLastKey (some 4))) (fun t => (t.key[4], t.lastKey)) =
      some (false, some 4) := by decide

theorem test_clearDrawFlag : got (clearDrawFlag (base.setDrawFlag true)) (fun t => t.drawFlag) = some false := by decide

theorem test_load_places_the_image :
    got (loadProgram [0x12, 0x34] base) (fun t => (t.mem, t.phase, t.loadResult)) =
      some ([(0x200, 0x12), (0x201, 0x34)], .loaded, some .ok) := by decide

theorem test_load_empty_image :
    got (loadProgram [] base) (fun t => (t.mem, t.phase)) = some ([], .loaded) := by decide

/-- The size limit is 3583 bytes (95_test_vectors.md 2.9; 90_conflicts.md C7). -/
theorem test_load_too_large : ∀ bytes : List Byte, bytes.length = 3584 →
    got (loadProgram bytes base) (fun t => (t.phase, t.loadResult)) =
      some (.empty, some (.programTooLarge 3584)) := by
  intro bytes h
  simp [loadProgram, base, State.reset, State.construct, maxProgramLen, h, got]

/-- The first byte and the last byte of the default font (10_state.md R16). -/
theorem test_font_bytes : base.readByte 0x050 = 0xF0 ∧ base.readByte 0x087 = 0xE0 ∧ base.readByte 0x09F = 0x80 ∧
    base.readByte 0x04F = 0 ∧ base.readByte 0x0A0 = 0 := by decide

/-- A write of the value an unlisted address reads as removes its cell; cells stand by rising address. -/
theorem test_memory_canonical :
    (((base.writeByte 0x300 7).writeByte 0x2FF 9).writeByte 0x300 0).mem = [(0x2FF, 9)] ∧
    (base.writeByte 0x050 0xF0).mem = [] ∧ (base.writeByte 0x050 0).mem = [(0x050, 0)] := by decide

/-- The error codes (60_exceptions.md R105). -/
theorem test_error_codes : (FatalError.addressOutOfRange 0x1000).code = 2 ∧ (FatalError.stackOverflow 0).code = 3 ∧
    (FatalError.stackUnderflow 0).code = 4 ∧ (LoadResult.programTooLarge 3584).code = some 1 ∧
    (Diagnostic.mk 0 0).code = 5 := by decide

theorem test_pastEnd : pastEnd 6 (ready 0x206) = true ∧ pastEnd 6 (ready 0x204) = false := by decide

/-- The host's question: the table's word decodes, and the first step after reset runs it. -/
theorem test_first_step_runs_the_table_word :
    decodeTableWord 16 0xA300 = some (.ldI 0x300#12) ∧
    got (step (State.reset.withFetchWord 16 0xA300)) (fun t => (t.iReg, t.pc)) = some (0x300, 0x202) := by decide

/-! ### Witnesses: a state that meets each statement's hypotheses, at the boundaries of its clauses -/

/-- A full-range state for the witnesses: loaded, running, memory canonical, SP 1 of 16. -/
def called : State := ((ready 0x300).setSp 1).setStackEntry 0 0x202

theorem test_called_meets_inv : called.Inv := by
  refine ⟨by decide, ⟨List.Pairwise.nil, fun e he => by cases he⟩, by decide, by decide, trivial⟩

/-- DecodeOfEncodeIsTheInstruction. -/
theorem test_witness_wellFormed : (Instr.drw 15 15 15).wellFormed = true ∧ (Instr.jp 0xFFF#12).wellFormed = true := by decide

/-- EncodeOfDecodeIsTheWord. -/
theorem test_witness_decodes : decode 0xD015#16 = .ok (.drw 0 1 5) := by decide

/-- StepRunsTheDecodedInstruction, at the last fetchable address. -/
theorem test_witness_step_runs : ((ready 0xFFE).withFetchWord 16 0x1200).phase = .loaded ∧
    ((ready 0xFFE).withFetchWord 16 0x1200).status = .running ∧ ((ready 0xFFE).withFetchWord 16 0x1200).pc.toNat ≤ 0xFFE ∧
    decodeBytes [((ready 0xFFE).withFetchWord 16 0x1200).readByte 0xFFE,
      ((ready 0xFFE).withFetchWord 16 0x1200).readByte 0xFFF] = .ok (.jp 0x200#12, []) := by decide

/-- FetchReadsTwoBytesOrFails: 0xFFE reads, 0xFFF and 0x1000 fail. -/
theorem test_witness_fetch : (ready 0xFFE).pc.toNat ≤ 0xFFE ∧ (0xFFE < (ready 0xFFF).pc.toNat ∧ (ready 0xFFF).phase = .loaded ∧
    (ready 0xFFF).status = .running) ∧ 0xFFE < (ready 0x1000).pc.toNat := by decide

/-- UnknownWordOnlyAdvances. -/
theorem test_witness_unknown : (ready 0x200).phase = .loaded ∧ (ready 0x200).status = .running ∧
    decode 0x0000#16 = .error (.unknownInstruction 0x0000#16) := by decide

theorem test_witness_unknown_fetch : fetch (ready 0x200) = .ok 0x0000#16 := by
  rw [fetch_ok _ (by decide)]; decide

/-- HaltedStepReturnsTheError. -/
theorem test_witness_halted : ((ready 0xFFF).setStatus (.halted (.addressOutOfRange 0x1000) 0xFFF)).phase = .loaded ∧
    ((ready 0xFFF).setStatus (.halted (.addressOutOfRange 0x1000) 0xFFF)).status =
      .halted (.addressOutOfRange 0x1000) 0xFFF := by decide

/-- HostDutiesAreRefused. -/
theorem test_witness_duties : base.phase = .empty ∧ (ready 0x200).phase = .loaded ∧ 16 ≤ (16 : Nat) := by decide

/-- DrwTurnsCoveredPixelsOver: 15 rows that end at 0xFFF; and no row with I beyond memory. -/
theorem test_witness_drw_in_range : (15 : Nat) < 16 ∧ (base.setI 0xFF1).indexAddr + 15 ≤ 0x1000 ∧
    0x1000 < (base.setI 0x2000).indexAddr := by decide

/-- RepeatedDrawRestoresTheScreen and SecondDrawCollidesIffFirstToggled: registers other than VF, one row in range, and two draws
with a next state. -/
theorem test_witness_repeated_draw : (0 : Reg) ≠ vf ∧ (1 : Reg) ≠ vf ∧ base.indexAddr + 1 ≤ 0x1000 ∧
    got (exec (.drw 0 1 1) base) (fun t => got (exec (.drw 0 1 1) t) (fun u => u.pc)) = some (some 0x204) := by decide

/-- What refutes SecondDrawCollidesIffFirstToggled: the sprite's one pixel is on before the first draw, which turns it off with
VF = 1; the second turns it on with VF = 0 (41_display.md R66; log 13). -/
theorem test_second_draw_without_collision :
    got (exec (.drw 0 1 1) (litAt ((base.setI 0x300).writeByte 0x300 0x80) 0 0)) (fun t =>
      (t.getV vf, got (exec (.drw 0 1 1) t) (fun u => u.getV vf))) = some (1, some 0) := by decide

/-- IndexedAccessBeyondMemoryRaises: the first address range of each form that leaves memory, and one with I beyond it. -/
theorem test_witness_beyond : 0x1000 < (base.setI 0xFFE).indexAddr + 3 ∧ 0x1000 < (base.setI 0xFF1).indexAddr + 15 + 1 ∧
    0x1000 < (base.setI 0xFFF).indexAddr + 2 ∧ 0x1000 < (base.setI 0x1000).indexAddr + 1 := by decide

/-- RetPopsTheCallStack: the empty stack, and one entry. -/
theorem test_witness_ret : base.sp = 0 ∧ 0 < called.sp ∧ called.stack[called.sp - 1]? = some 0x202 := by decide

/-- CallPushesTheReturnAddress: the full stack, and the last free entry. -/
theorem test_witness_call : (base.setSp 16).sp = (base.setSp 16).cfg.stackDepth ∧
    (base.setSp 15).sp < (base.setSp 15).cfg.stackDepth ∧ (base.setSp 15).sp < (base.setSp 15).stack.length := by decide

/-- CallThenReturnComesBack: `called` meets the invariant, and has room. -/
theorem test_witness_call_return : called.Inv ∧ called.sp < called.cfg.stackDepth := ⟨test_called_meets_inv, by decide⟩

/-- SkipsOnRegisters: words of families 5 and 9 with another low nibble. -/
theorem test_witness_skip_words : fieldOp 0x5121#16 = 0x5#4 ∧ fieldN 0x5121#16 ≠ 0#4 ∧ fieldOp 0x9128#16 = 0x9#4 ∧
    fieldN 0x9128#16 ≠ 0#4 := by decide

/-- AddRegSetsCarry, SubtractionsFollowTheFlagPolicy, ShiftsFollowTheShiftPolicy: each policy, and a register other than VF. -/
theorem test_witness_policies : (0 : Reg) ≠ vf ∧ base.cfg.subFlagPolicy = .noFlag ∧ base.cfg.shiftPolicy = .inPlaceNoFlag ∧
    (withPolicies base .wrap .notBorrow .inPlaceFlag).cfg.subFlagPolicy = .notBorrow ∧
    (withPolicies base .wrap .notBorrow .inPlaceFlag).cfg.shiftPolicy = .inPlaceFlag ∧
    (withPolicies base .wrap .notBorrow .fromVyFlag).cfg.shiftPolicy = .fromVyFlag := by decide

/-- LdFPointsAtTheGlyph, LdBStoresTheDecimalDigits, StoreRegsCopiesToMemory, LoadRegsCopiesFromMemory: the last range inside
memory of each form, with memory in canonical form, and the first outside. -/
theorem test_witness_index_forms : base.cfg.WellFormed ∧ (base.setI 0xFFD).indexAddr + 2 ≤ 0xFFF ∧
    0xFFF < (base.setI 0xFFE).indexAddr + 2 ∧ (base.setI 0xFF0).indexAddr + 15 ≤ 0xFFF := by decide

theorem test_witness_memory_wf : Memory.wf base.cfg base.mem := ⟨List.Pairwise.nil, fun e he => by cases he⟩

/-- StoredBytesAreFetchedNext. -/
theorem test_witness_self_modifying : (1 : Reg) ≤ 1 ∧ ((ready 0x200).setI 0x202).iReg = ((ready 0x200).setI 0x202).pc + 2 ∧
    ((ready 0x200).setI 0x202).indexAddr + 1 ≤ 0xFFF := by decide

/-- SkipsOnKeys: the last key, and the first value that names none; KeyWaitBlocksOrConsumes: both cases. -/
theorem test_witness_keys : ((base.setV 5 15).getV 5).toNat = (15 : KeyIdx).val ∧ 16 ≤ ((base.setV 5 16).getV 5).toNat ∧
    base.lastKey = none ∧ (base.setLastKey (some 15)).lastKey = some 15 := by decide

/-- LoadPlacesTheImage: the largest image that loads and the smallest that does not. -/
theorem test_witness_load : base.phase = .empty ∧ (List.replicate 3583 (0 : Byte)).length ≤ 3583 ∧
    3583 < (List.replicate 3584 (0 : Byte)).length := by
  refine ⟨rfl, ?_, ?_⟩ <;> rw [List.length_replicate]
  decide

/-- StepKeepsInv, LoadedStepNeverStops, ConstructionMeetsInv, EveryHostSequenceKeepsInv: a state with the invariant that steps,
and a sequence of the host's operations that runs. -/
theorem test_witness_step_from_inv : called.Inv ∧ called.phase = .loaded ∧
    got (step called) (fun t => t.pc) = some 0x302 := ⟨test_called_meets_inv, by decide, by decide⟩

theorem test_witness_host_sequence : defaultConfig.WellFormed ∧
    got (performAll [.load [0x60, 0x05], .setKey 3 true, .step, .tick, .clearDrawFlag] (State.construct defaultConfig))
      (fun t => (t.getV 0, t.lastKey)) = some (5, some 3) := by decide

/-- EveryHostOperationKeepsInv: states with the invariant and each operation of the host answering from one. -/
theorem test_witness_host_operation : State.reset.Inv ∧ called.Inv ∧
    got (perform (.load [0x60]) State.reset) (fun t => t.phase) = some .loaded ∧
    got (perform .step called) (fun t => t.pc) = some 0x302 ∧ got (perform .tick called) (fun t => t.dt) = some 0 ∧
    got (perform (.setKey 15 true) called) (fun t => t.lastKey) = some (some 15) ∧
    got (perform .clearDrawFlag called) (fun t => t.drawFlag) = some false :=
  ⟨⟨by decide, by decide, by decide, by decide, trivial⟩, test_called_meets_inv, by decide, by decide, by decide, by decide,
    by decide⟩

/-- FatalErrorCommitsNothing and StepResultTellsWhatHappened: a running state whose step halts it, and one whose step draws. -/
theorem test_witness_halting_step : ((ready 0x200).withFetchWord 16 0x00EE).status = .running ∧
    got (run1 0x00EE (ready 0x200)) halt = some (.halted (.stackUnderflow 0x200) 0x200, 0x200) ∧
    got (run1 0x00E0 (ready 0x200)) (fun t => t.stepResult) = some (some ⟨.ok, true, none⟩) := by decide

/-- OnlyDrawingChangesTheScreen, OnlyStoresChangeMemory, StepLeavesTheHostsState: the next instruction is neither. -/
theorem test_witness_next_instr : nextInstr ((ready 0x200).withFetchWord 16 0x6A2F) = some (.ldImm 10 0x2F#8) ∧
    isDraw (.ldImm 10 0x2F#8) = false ∧ isStore (.ldImm 10 0x2F#8) = false := by decide

/-- StackIsInvisibleToOthers, OnlyNamedRegistersChange, OnlyIndexInstructionsChangeI. -/
theorem test_witness_exec : usesStack (.addReg 1 2) = false ∧ (3 : Reg) ∉ destRegs (.addReg 1 2) ∧ vf ∉ destRegs (.subReg 1 2) ∧
    writesFlag base.cfg (.subReg 1 2) = false ∧
    got (exec (.addReg 1 2) base) (fun t => (t.iReg, t.pc)) = some (0, 0x202) := by decide

/-- SelfJumpRunsForEver. -/
theorem test_witness_self_jump : ((ready 0x204).withFetchWord 16 0x1204).phase = .loaded ∧
    ((ready 0x204).withFetchWord 16 0x1204).status = .running ∧
    nextInstr ((ready 0x204).withFetchWord 16 0x1204) = some (.jp 0x204#12) ∧
    ((ready 0x204).withFetchWord 16 0x1204).pc.toNat = (0x204#12).toNat := by decide

end Sys2Proof.Tests
end

section
/-! PROOFS. Construction (10_state.md R29; 70_reset_and_hazards.md R123): what every element holds, and the invariant. -/

namespace Sys2Proof.Machine

theorem initialByte_font (c : Config) (k : Fin 80) : initialByte c (c.fontBase + k.val) = c.font[k.val] := by
  simp [initialByte]

theorem initialByte_outside_font (c : Config) (a : Nat) (h : ¬ (c.fontBase ≤ a ∧ a < c.fontBase + 80)) :
    initialByte c a = 0 := by
  unfold initialByte
  split
  · rfl
  · have hk : 80 ≤ a - c.fontBase := by omega
    simp [hk]

@[simp] theorem State.construct_readByte (c : Config) (a : Nat) : (State.construct c).readByte a = initialByte c a := rfl

/-- Settles O45: memory is the unlisted bytes alone, every other element is the literal R29 gives. -/
theorem constructionLeavesTheResetValues : Obligations.ConstructionLeavesTheResetValues := by
  intro c
  have hfont (k : Fin 80) : (State.construct c).readByte (c.fontBase + k.val) = c.font[k.val] := initialByte_font c k
  have helsewhere (a : Nat) (h : ¬ (c.fontBase ≤ a ∧ a < c.fontBase + 80)) : (State.construct c).readByte a = 0 :=
    initialByte_outside_font c a h
  refine ⟨hfont, helsewhere, ?_⟩
  simp +contextual [State.construct, State.getV, State.pixel, programBase]

theorem construct_inv (c : Config) (hc : c.WellFormed) : (State.construct c).Inv :=
  ⟨hc, ⟨List.Pairwise.nil, fun _ he => nomatch he⟩, List.length_replicate, Nat.zero_le _, trivial⟩

theorem defaultConfig_wellFormed : defaultConfig.WellFormed := by decide

/-- Settles O47: reset is construction with the default parameters, which are admissible. -/
theorem constructionMeetsInv : Obligations.ConstructionMeetsInv :=
  ⟨construct_inv defaultConfig defaultConfig_wellFormed, construct_inv⟩

end Sys2Proof.Machine
end

section
/-! PROOFS. What a step can answer, with the resulting state written out, and what follows for every step: the invariant, the
screen and the host's state. -/

namespace Sys2Proof.Machine

/-! ### The cases of a step -/

/-- The state after `s` raises `e` (60_exceptions.md R107). -/
def State.raised (s : State) (e : FatalError) : State :=
  (s.setStatus (.halted e s.pc)).setStepResult ⟨.error e, false, none⟩

/-- Where a running step's error comes from: the fetch, or the instruction it executes. -/
def StepRaises (s : State) (e : FatalError) : Prop :=
  fetch s = .error e ∨ ∃ i, nextInstr s = some i ∧ RaiseCause i s e

/-- The four ways a step answers `t`: a halted block's error again (R108), an error raised (R107), a word that is no instruction
(30_encoding.md R56), an instruction completed (R54). -/
inductive StepCase (s t : State) : Prop where
  | again (e : FatalError) (a : Word) (hs : s.status = .halted e a) (ht : t = s.setStepResult ⟨.error e, false, none⟩)
  | raised (e : FatalError) (hs : s.status = .running) (hc : StepRaises s e) (ht : t = s.raised e)
  | unknown (w : Word) (hs : s.status = .running) (hw : fetch s = .ok w)
      (hd : decode w = .error (.unknownInstruction w)) (ht : t = s.advance.setStepResult ⟨.ok, false, some ⟨w, s.pc⟩⟩)
  | completed (i : Instr) (hs : s.status = .running) (hi : nextInstr s = some i) (hc : Completed i s t)

theorem nextInstr_of_fetch {s : State} {w : Word} {i : Instr} (hw : fetch s = .ok w) (hd : decode w = .ok i) :
    nextInstr s = some i := by
  simp [nextInstr, hw, hd]

theorem stepCase_of_next {s t : State} (h : step s = .next t) : StepCase s t := by
  obtain ⟨-, ⟨e, a, hs, hk⟩ | ⟨hs, ⟨e, he, hr⟩ | ⟨w, hw, ⟨i, hd, hx⟩ | ⟨r, hd, hx⟩⟩⟩⟩ := step_next h
  · exact .again e a hs (stepHalted_next hk)
  · exact .raised e hs (.inl he) (raise_next hr)
  · have hi := nextInstr_of_fetch hw hd
    obtain ⟨e, hc, hr⟩ | hc := exec_next hx
    · exact .raised e hs (.inr ⟨i, hi, hc⟩) (raise_next hr)
    · exact .completed i hs hi hc
  · obtain rfl := decode_error w r hd
    exact .unknown w hs hw hd (execUnknown_next hx)

/-! ### The invariant -/

theorem State.haltConsistent_of_running {s : State} (h : s.status = .running) : s.haltConsistent := by
  simp [State.haltConsistent, h]

/-- The invariant of a state that has the parameters, the memory and the stack of one that meets it. -/
theorem State.Inv.of_same {s t : State} (h : s.Inv) (hcfg : t.cfg = s.cfg) (hmem : t.mem = s.mem)
    (hstack : t.stack = s.stack) (hsp : t.sp = s.sp) (ht : t.haltConsistent) : t.Inv := by
  obtain ⟨hc, hm, hl, hb, -⟩ := h
  unfold State.Inv
  rw [hcfg, hmem, hstack, hsp]
  exact ⟨hc, hm, hl, hb, ht⟩

theorem State.setStepResult_eq_self {s : State} {r : StepResult} (h : s.stepResult = some r) : s.setStepResult r = s := by
  simp only [State.setStepResult, ← h]

/-- A halted block that meets the invariant is left as it is by the error's repetition: its last result says the same. -/
theorem State.Inv.again_eq {s : State} {e : FatalError} {a : Word} (h : s.Inv) (hs : s.status = .halted e a) :
    s.setStepResult ⟨.error e, false, none⟩ = s := by
  obtain ⟨-, -, -, -, hh⟩ := h
  rw [State.haltConsistent, hs] at hh
  obtain ⟨-, hresult, -⟩ := hh
  exact State.setStepResult_eq_self hresult

/-- The address an indexed access or a fetch records lies outside the 4096 bytes and fits 16 bits (20_memory.md R34, R35). -/
theorem firstOutside_bounds (a : Nat) (h : a < 0x10000) :
    0x1000 ≤ (if 0xFFF < a then a else 0x1000) ∧ (if 0xFFF < a then a else 0x1000) < 0x10000 := by
  split <;> omega

theorem fetch_error {s : State} {e : FatalError} (h : fetch s = .error e) :
    e = .addressOutOfRange (if 0xFFF < s.pc.toNat then s.pc.toNat else 0x1000) := by
  by_cases hpc : s.pc.toNat + 1 ≤ 0xFFF
  · rw [fetch_ok s hpc] at h
    cases h
  · rw [fetch_out s (by omega)] at h
    cases h
    rfl

/-- Raising makes the halted status tell the truth: the recorded value is one the cause can give. -/
theorem StepRaises.haltConsistent {s : State} {e : FatalError} (h : StepRaises s e) (hsp : s.sp ≤ s.cfg.stackDepth) :
    (s.raised e).haltConsistent := by
  refine ⟨rfl, rfl, ?_⟩
  obtain hf | ⟨i, -, hc⟩ := h
  · rw [fetch_error hf]
    exact firstOutside_bounds _ s.pc.isLt
  · cases e with
    | addressOutOfRange n =>
      obtain ⟨rfl, -⟩ := hc
      exact firstOutside_bounds _ s.iReg.isLt
    | stackOverflow b =>
      obtain ⟨hb, hfull, -⟩ := hc
      exact ⟨hb, Nat.le_antisymm hsp hfull⟩
    | stackUnderflow b =>
      obtain ⟨hb, hempty, -⟩ := hc
      exact ⟨hb, hempty⟩

/-- A completed instruction of a running block keeps the invariant. -/
theorem Completed.inv {i : Instr} {s t : State} (h : Completed i s t) (hs : s.status = .running) (hi : s.Inv) : t.Inv := by
  obtain ⟨hc, hm, hl, hb, -⟩ := hi
  refine ⟨?_, h.memWf hm, ?_, ?_, State.haltConsistent_of_running (h.status.trans hs)⟩
  · rw [h.cfg]; exact hc
  · rw [h.cfg, h.stackLength, hl]
  · rw [h.cfg]; exact h.spBound hb

/-- Settles O46, case by case of what the step answered. -/
theorem stepKeepsInv : Obligations.StepKeepsInv := by
  intro s t hinv h
  cases stepCase_of_next h with
  | again e a hs ht => rwa [ht, hinv.again_eq hs]
  | raised e hs hc ht =>
    have ⟨_, _, _, hsp, _⟩ := hinv
    subst ht
    exact hinv.of_same rfl rfl rfl rfl (hc.haltConsistent hsp)
  | unknown w hs hw hd ht =>
    subst ht
    exact hinv.of_same rfl rfl rfl rfl (State.haltConsistent_of_running hs)
  | completed i hs hi hc => exact hc.inv hs hinv

/-! ### The screen and the host's state -/

/-- Settles O52: a step that completes no instruction leaves the screen, and one that completes is not a draw. -/
theorem onlyDrawingChangesTheScreen : Obligations.OnlyDrawingChangesTheScreen := by
  intro s t h hnodraw
  cases stepCase_of_next h with
  | again e a hs ht => subst ht; exact ⟨rfl, fun _ _ => rfl⟩
  | raised e hs hc ht => subst ht; exact ⟨rfl, fun _ _ => rfl⟩
  | unknown w hs hw hd ht => subst ht; exact ⟨rfl, fun _ _ => rfl⟩
  | completed i hs hi hc =>
    obtain ⟨hfb, hflag⟩ := hc.screen (hnodraw i hi)
    exact ⟨hflag, fun row col => by simp only [State.pixel, hfb]⟩

/-- Settles O55: a step that completes no instruction touches none of these parts, and `Completed` names the three writers. -/
theorem stepLeavesTheHostsState : Obligations.StepLeavesTheHostsState := by
  intro s t h
  cases stepCase_of_next h with
  | again e a hs ht => subst ht; simp
  | raised e hs hc ht => subst ht; simp [State.raised]
  | unknown w hs hw hd ht => subst ht; simp
  | completed i hs hi hc =>
    refine ⟨hc.key, hc.phase, hc.cfg, hc.loadResult, fun hx => hc.dt ?_, fun hx => hc.st ?_, fun hx => hc.lastKey ?_⟩
    all_goals
      rintro x rfl
      exact hx x hi

end Sys2Proof.Machine
end

section
/-! PROOFS. What a completed instruction leaves in the V registers and in I (10_state.md R14, R15, R17). -/

namespace Sys2Proof.Machine

/-! ### Registers the shared updates keep -/

theorem State.getV_setFlag_other (s : State) (b : Bool) {q : Reg} (h : q ≠ vf) : (s.setFlag b).getV q = s.getV q :=
  State.getV_setV_other s vf q (flagByte b) h

theorem State.getV_flagThenResult_other (s : State) (x : Reg) (d : Byte) (f : Bool) {q : Reg} (hx : q ≠ x) (hf : q ≠ vf) :
    (s.flagThenResult x d f).getV q = s.getV q := by
  rw [State.flagThenResult, State.getV_setV_other _ x q d hx, State.getV_setFlag_other s f hf]

theorem State.getV_resultThenFlag_other (s : State) (x : Reg) (d : Byte) (f : Bool) {q : Reg} (hx : q ≠ x) (hf : q ≠ vf) :
    (s.resultThenFlag x d f).getV q = s.getV q := by
  rw [State.resultThenFlag, State.getV_setFlag_other _ f hf, State.getV_setV_other s x q d hx]

/-- A subtraction keeps VF too unless the policy writes the flag (decision D17). -/
theorem State.getV_subWrite_other (s : State) (x : Reg) (d : Byte) (f : Bool) {q : Reg} (hx : q ≠ x)
    (hf : q = vf → s.cfg.subFlagPolicy ≠ .notBorrow) : (s.subWrite x d f).getV q = s.getV q := by
  unfold State.subWrite
  split
  · exact State.getV_setV_other s x q d hx
  · next hp => exact State.getV_resultThenFlag_other s x d f hx fun hq => hf hq hp

/-- A shift keeps VF too unless the policy writes the flag (decision D18). -/
theorem State.getV_shiftWrite_other (s : State) (x y : Reg) (g : Byte → Byte) (o : Byte → Bool) {q : Reg} (hx : q ≠ x)
    (hf : q = vf → s.cfg.shiftPolicy = .inPlaceNoFlag) : (s.shiftWrite x y g o).getV q = s.getV q := by
  unfold State.shiftWrite
  split
  · exact State.getV_setV_other s x q _ hx
  · next hp => exact State.getV_resultThenFlag_other s x _ _ hx fun hq => by simpa [hp] using hf hq
  · next hp => exact State.getV_resultThenFlag_other s x _ _ hx fun hq => by simpa [hp] using hf hq

theorem State.getV_drawSprite_other (s : State) (x y : Reg) (rows : List Byte) {q : Reg} (h : q ≠ vf) :
    (s.drawSprite x y rows).getV q = s.getV q :=
  State.getV_setFlag_other (s.setFb _) _ h

/-- Loading a block for V0 to Vx keeps the registers above Vx. -/
theorem State.getV_setRegsFrom_above (s : State) (x : Reg) (bs : List Byte) (hl : bs.length = x.val + 1) {q : Reg}
    (h : ¬ q ≤ x) : (s.setRegsFrom 0 bs).getV q = s.getV q := by
  have hq : ¬ (0 ≤ q.val ∧ q.val < 0 + bs.length) := by
    have : ¬ q.val ≤ x.val := h
    omega
  rw [State.getV_setRegsFrom, if_neg hq]

@[simp] theorem State.drawSprite_iReg (s : State) (x y : Reg) (rows : List Byte) : (s.drawSprite x y rows).iReg = s.iReg := rfl

/-! ### Every instruction -/

/-- `t` has the registers of `s`, but for those the instruction names, VF where the policies write it, and I where it is one of
the three that write I. -/
structure KeepsRegisters (i : Instr) (s t : State) : Prop where
  v : ∀ r, r ∉ destRegs i → (r = vf → writesFlag s.cfg i = false) → t.getV r = s.getV r
  iReg : (∀ nnn, i ≠ .ldI nnn) → (∀ x, i ≠ .addI x) → (∀ x, i ≠ .ldF x) → t.iReg = s.iReg

/-- A raise writes no register, whatever the instruction. -/
theorem keepsRegisters_of_raise {i : Instr} {e : FatalError} {s t : State} (h : raise e s = .next t) :
    KeepsRegisters i s t := by
  obtain rfl := raise_next h
  exact ⟨fun _ _ _ => rfl, fun _ _ _ => rfl⟩

theorem readBlock_eq_ok {s : State} {a len : Nat} {bs : List Byte} (h : readBlock s a len = .ok bs) :
    bs = s.bytesAt a len := by
  obtain ⟨hr, -⟩ | ⟨hr, -⟩ := readBlock_cases s a len <;> rw [hr] at h <;> cases h
  rfl

theorem writeBlock_eq_ok {s u : State} {a : Nat} {bs : List Byte} (h : writeBlock s a bs = .ok u) :
    u = s.writeBytes a bs := by
  obtain ⟨hr, -⟩ | ⟨hr, -⟩ := writeBlock_cases s a bs <;> rw [hr] at h <;> cases h
  rfl

/-- A store instruction's block write and completion touch no register. -/
theorem keepsRegisters_of_writeBlock {i : Instr} {s t : State} {a : Nat} {bs : List Byte}
    (h : orRaise s (writeBlock s.advance a bs) complete = .next t) : KeepsRegisters i s t := by
  obtain ⟨e, -, hr⟩ | ⟨u, hu, hk⟩ := orRaise_next h
  · exact keepsRegisters_of_raise hr
  · rw [complete_next hk, writeBlock_eq_ok hu]
    exact ⟨by simp, by simp⟩

theorem exec_keepsRegisters {i : Instr} {s t : State} (h : exec i s = .next t) : KeepsRegisters i s t := by
  cases i
  case ret =>
    obtain ⟨-, hr⟩ | ⟨-, w, -, hk⟩ := popReturn_next (show execRet s = .next t from h)
    · exact keepsRegisters_of_raise hr
    · rw [complete_next hk]
      exact ⟨by simp, by simp⟩
  case call nnn =>
    obtain ⟨-, hr⟩ | ⟨-, -, hk⟩ := pushReturn_next (show execCall nnn s = .next t from h)
    · exact keepsRegisters_of_raise hr
    · rw [complete_next hk]
      exact ⟨by simp, by simp⟩
  case drw x y n =>
    obtain ⟨e, -, hr⟩ | ⟨bs, -, hk⟩ := orRaise_next (show execDrw x y n s = .next t from h)
    · exact keepsRegisters_of_raise hr
    · rw [completeDraw_next hk]
      refine ⟨fun r _ hf => ?_, by simp⟩
      have hr : r ≠ vf := fun hr => by simpa [writesFlag] using hf hr
      simp [State.getV_drawSprite_other _ x y bs hr]
  case ldB x => exact keepsRegisters_of_writeBlock (show execLdB x s = .next t from h)
  case storeRegs x => exact keepsRegisters_of_writeBlock (show execStoreRegs x s = .next t from h)
  case loadRegs x =>
    obtain ⟨e, -, hr⟩ | ⟨bs, hb, hk⟩ := orRaise_next (show execLoadRegs x s = .next t from h)
    · exact keepsRegisters_of_raise hr
    · rw [complete_next hk]
      refine ⟨fun r hd _ => ?_, by simp⟩
      have hx : ¬ r ≤ x := by simpa [destRegs] using hd
      have hl : bs.length = x.val + 1 := by simp [readBlock_eq_ok hb]
      simp [State.getV_setRegsFrom_above _ x bs hl hx]
  case cls =>
    rw [completeDraw_next (show execCls s = .next t from h)]
    exact ⟨by simp, by simp⟩
  case ldVxK x =>
    have h : execLdVxK x s = .next t := h
    unfold execLdVxK at h
    split at h <;> rw [complete_next h]
    · exact ⟨by simp, by simp⟩
    · exact ⟨by simp +contextual [destRegs, State.getV_setV], by simp⟩
  case addReg x y =>
    rw [complete_next (show execAddReg x y s = .next t from h)]
    refine ⟨fun r hd hf => ?_, by simp [State.flagThenResult, State.setFlag]⟩
    have hx : r ≠ x := by simpa [destRegs] using hd
    have hv : r ≠ vf := by simpa [writesFlag] using hf
    simp [State.getV_flagThenResult_other _ x _ _ hx hv]
  case subReg x y | subn x y =>
    rw [complete_next (show complete _ = .next t from h)]
    refine ⟨fun r hd hf => ?_, by simp⟩
    have hx : r ≠ x := by simpa [destRegs] using hd
    have hv : r = vf → s.advance.cfg.subFlagPolicy ≠ .notBorrow := by simpa [writesFlag] using hf
    simp [State.getV_subWrite_other _ x _ _ hx hv]
  case shr x y | shl x y =>
    rw [complete_next (show complete _ = .next t from h)]
    refine ⟨fun r hd hf => ?_, by simp⟩
    have hx : r ≠ x := by simpa [destRegs] using hd
    have hv : r = vf → s.advance.cfg.shiftPolicy = .inPlaceNoFlag := by simpa [writesFlag] using hf
    simp [State.getV_shiftWrite_other _ x y _ _ hx hv]
  case ldImm | addImm | ldReg | orReg | andReg | xorReg | rnd | ldVxDt =>
    rw [complete_next (show complete _ = .next t from h)]
    exact ⟨by simp +contextual [destRegs, State.getV_setV, drawRand], by simp [drawRand]⟩
  case jp | jpV0 | ldDtVx | ldStVx | ldI | addI | ldF =>
    rw [complete_next (show complete _ = .next t from h)]
    exact ⟨by simp, by simp⟩
  case seImm | sneImm | seReg | sneReg | skp | sknp =>
    rw [complete_next (show complete _ = .next t from h)]
    exact ⟨by simp [State.skipIf_eq], by simp [State.skipIf_eq]⟩

/-- Settles O56: the registers' half of `exec_keepsRegisters`. -/
theorem onlyNamedRegistersChange : Obligations.OnlyNamedRegistersChange :=
  fun _ _ _ r h hd hf => (exec_keepsRegisters h).v r hd hf

/-- Settles O57: the half of `exec_keepsRegisters` about I. -/
theorem onlyIndexInstructionsChangeI : Obligations.OnlyIndexInstructionsChangeI :=
  fun _ _ _ h => (exec_keepsRegisters h).iReg

end Sys2Proof.Machine
end

section
/-! PROOFS. The call stack cannot be seen by the 32 instructions that do not use it (10_state.md R19; decision D7): exchanging it
commutes with every update and read they make. -/

namespace Sys2Proof.Machine

/-! ### Exchanging the stack -/

/-- `s` with another stack and another SP. -/
def State.withStack (s : State) (k : List Word) (n : Nat) : State := { s with stack := k, sp := n }

theorem State.withStack_writeByte (s : State) (k : List Word) (n a : Nat) (b : Byte) :
    (s.withStack k n).writeByte a b = (s.writeByte a b).withStack k n := by
  unfold State.writeByte
  split <;> rfl

theorem State.withStack_writeBytes (s : State) (k : List Word) (n a : Nat) (bs : List Byte) :
    (s.withStack k n).writeBytes a bs = (s.writeBytes a bs).withStack k n := by
  induction bs generalizing s a with
  | nil => rfl
  | cons b bs ih => rw [State.writeBytes, State.withStack_writeByte, ih, State.writeBytes]

theorem State.withStack_setRegsFrom (s : State) (k : List Word) (n q : Nat) (bs : List Byte) :
    (s.withStack k n).setRegsFrom q bs = (s.setRegsFrom q bs).withStack k n := by
  induction bs generalizing s q with
  | nil => rfl
  | cons b bs ih =>
    rw [State.setRegsFrom, State.setRegsFrom, ← ih]
    split <;> rfl

theorem State.withStack_skipIf (s : State) (k : List Word) (n : Nat) (c : Bool) :
    (s.withStack k n).skipIf c = (s.skipIf c).withStack k n := by
  cases c <;> rfl

theorem State.withStack_subWrite (s : State) (k : List Word) (n : Nat) (x : Reg) (d : Byte) (f : Bool) :
    (s.withStack k n).subWrite x d f = (s.subWrite x d f).withStack k n := by
  unfold State.subWrite
  rw [show (s.withStack k n).cfg = s.cfg from rfl]
  split <;> rfl

theorem State.withStack_shiftWrite (s : State) (k : List Word) (n : Nat) (x y : Reg) (g : Byte → Byte) (o : Byte → Bool) :
    (s.withStack k n).shiftWrite x y g o = (s.shiftWrite x y g o).withStack k n := by
  unfold State.shiftWrite
  rw [show (s.withStack k n).cfg = s.cfg from rfl]
  split <;> rfl

/-! ### Answers that do not depend on the stack -/

/-- `f` answers a next state from `s`, and from `s` with any other stack the same state with that stack. -/
def StackBlindAt (f : State → Result) (s : State) : Prop :=
  ∃ t, f s = .next t ∧ ∀ k n, f (s.withStack k n) = .next (t.withStack k n)

/-- Run on its own stack, a stack-blind meaning leaves that stack: the stack it is handed is the one that stands in its answer. -/
theorem StackBlindAt.keeps_stack {f : State → Result} {s t : State} (h : StackBlindAt f s) (ht : f s = .next t) :
    t.stack = s.stack ∧ t.sp = s.sp := by
  obtain ⟨u, -, hk⟩ := h
  have hu : f s = .next (u.withStack s.stack s.sp) := hk s.stack s.sp
  rw [ht] at hu
  cases hu
  exact ⟨rfl, rfl⟩

theorem stackBlindAt_completeWith (d : Bool) {f : State → State} {s : State}
    (hf : ∀ k n, f (s.withStack k n) = (f s).withStack k n) : StackBlindAt (fun u => completeWith d (f u)) s :=
  ⟨_, rfl, fun k n => congrArg (completeWith d) (hf k n)⟩

theorem stackBlindAt_complete {f : State → State} {s : State} (hf : ∀ k n, f (s.withStack k n) = (f s).withStack k n) :
    StackBlindAt (fun u => complete (f u)) s := stackBlindAt_completeWith false hf

/-- A block read answers the same bytes or the same error whatever the stack; the rest follows the bytes. -/
theorem stackBlindAt_readBlock (s : State) (a len : Nat) {g : List Byte → State → Result}
    (hg : ∀ bs, StackBlindAt (g bs) s) :
    StackBlindAt (fun u => orRaise u (readBlock u.advance a len) fun bs => g bs u) s := by
  have hsame (k n) : readBlock (s.withStack k n).advance a len = readBlock s.advance a len := rfl
  obtain ⟨hr, -⟩ | ⟨hr, -⟩ := readBlock_cases s.advance a len
  · obtain ⟨t, ht, hk⟩ := hg (s.advance.bytesAt a len)
    exact ⟨t, by simpa only [hr, orRaise] using ht, fun k n => by simpa only [hsame, hr, orRaise] using hk k n⟩
  · exact ⟨_, by simp only [hr, orRaise]; rfl, fun k n => by simp only [hsame, hr, orRaise]; rfl⟩

theorem stackBlindAt_writeBlock (s : State) (a : Nat) (bs : List Byte) :
    StackBlindAt (fun u => orRaise u (writeBlock u.advance a bs) complete) s := by
  cases hb : blockFault a bs.length with
  | some e => exact ⟨s.raised e, by simp only [writeBlock, hb]; rfl, fun k n => by simp only [writeBlock, hb]; rfl⟩
  | none =>
    have hw (u : State) : writeBlock u a bs = .ok (u.writeBytes a bs) := by simp only [writeBlock, hb]
    simp only [hw, orRaise]
    exact stackBlindAt_complete fun k n => State.withStack_writeBytes s.advance k n a bs

theorem stackBlindAt_drw (x y : Reg) (n : Nat) (s : State) : StackBlindAt (execDrw x y n) s :=
  stackBlindAt_readBlock s s.indexAddr n (g := fun rows u => completeDraw (u.advance.drawSprite x y rows)) fun _ =>
    stackBlindAt_completeWith true fun _ _ => rfl

theorem stackBlindAt_loadRegs (x : Reg) (s : State) : StackBlindAt (execLoadRegs x) s :=
  stackBlindAt_readBlock s s.indexAddr (x.val + 1) (g := fun bs u => complete (u.advance.setRegsFrom 0 bs)) fun bs =>
    stackBlindAt_complete fun k n => State.withStack_setRegsFrom s.advance k n 0 bs

theorem stackBlindAt_ldVxK (x : Reg) (s : State) : StackBlindAt (execLdVxK x) s := by
  have hsame (k n) : (s.withStack k n).lastKey = s.lastKey := rfl
  unfold StackBlindAt execLdVxK
  cases h : s.lastKey with
  | none => exact ⟨_, rfl, fun k n => by simp only [hsame, h]; rfl⟩
  | some p => exact ⟨_, rfl, fun k n => by simp only [hsame, h]; rfl⟩

theorem exec_stackBlindAt (i : Instr) (hi : usesStack i = false) (s : State) : StackBlindAt (exec i) s := by
  cases i
  case ret | call => cases hi
  case drw x y n => exact stackBlindAt_drw x y n s
  case ldB x => exact stackBlindAt_writeBlock s s.indexAddr (bcdDigits (s.getV x))
  case storeRegs x => exact stackBlindAt_writeBlock s s.indexAddr (s.regsUpTo x)
  case loadRegs x => exact stackBlindAt_loadRegs x s
  case ldVxK x => exact stackBlindAt_ldVxK x s
  case seImm | sneImm | seReg | sneReg | skp | sknp =>
    exact stackBlindAt_complete fun k n => State.withStack_skipIf s.advance k n _
  case subReg | subn => exact stackBlindAt_complete fun k n => State.withStack_subWrite s.advance k n _ _ _
  case shr | shl => exact stackBlindAt_complete fun k n => State.withStack_shiftWrite s.advance k n _ _ _ _
  case cls => exact stackBlindAt_completeWith true fun _ _ => rfl
  case jp | jpV0 | ldImm | addImm | ldReg | orReg | andReg | xorReg | addReg | rnd | ldI | addI | ldF | ldVxDt | ldDtVx
      | ldStVx =>
    exact stackBlindAt_complete fun _ _ => rfl

/-- Settles O54: the answer on the other stack is `StackBlindAt`'s, and on its own stack it leaves that stack. -/
theorem stackIsInvisibleToOthers : Obligations.StackIsInvisibleToOthers := by
  intro i s k n hi
  have hblind := exec_stackBlindAt i hi s
  have ⟨t, ht, hk⟩ := hblind
  obtain ⟨hstack, hsp⟩ := hblind.keeps_stack ht
  exact ⟨t, ht, hstack, hsp, hk k n⟩

end Sys2Proof.Machine
end

section
/-! PROOFS. Indexed memory (20_memory.md): ranges beyond memory, Fx55's store and the fetch after it, and who writes memory. -/

namespace Sys2Proof.Machine

/-! ### Ranges beyond memory -/

/-- The address R35 records, the range's start when that lies outside memory and else 0x1000, is the larger of the two. -/
theorem firstOutside_eq_max (a : Nat) : (if 0xFFF < a then a else 0x1000) = max a 0x1000 := by
  split <;> omega

theorem readBlock_beyond (s : State) {a len : Nat} (h0 : 0 < len) (h : 0x1000 < a + len) :
    readBlock s a len = .error (.addressOutOfRange (max a 0x1000)) := by
  rw [readBlock_out s a len h0 h, firstOutside_eq_max]

theorem writeBlock_beyond (s : State) {a : Nat} {bs : List Byte} (h0 : 0 < bs.length) (h : 0x1000 < a + bs.length) :
    writeBlock s a bs = .error (.addressOutOfRange (max a 0x1000)) := by
  rw [writeBlock_out s a bs h0 h, firstOutside_eq_max]

/-- An instruction that goes on with a failed access raises the access's error and commits nothing (60_exceptions.md R107). -/
theorem orRaise_raisedOnly {α : Type} {s : State} {x : Except FatalError α} {e : FatalError} (hx : x = .error e)
    (k : α → Result) : ∃ t, orRaise s x k = .next t ∧ RaisedOnly e s t := by
  subst hx
  exact raise_raisedOnly e s

/-- Settles O15: each form starts with one block access, which fails before any byte is touched. -/
theorem indexedAccessBeyondMemoryRaises : Obligations.IndexedAccessBeyondMemoryRaises := by
  intro x y n s
  refine ⟨fun hn h => ?drw, fun h => ?ldB, fun h => ?storeRegs, fun h => ?loadRegs⟩
  case drw => exact orRaise_raisedOnly (readBlock_beyond s.advance hn h) _
  case ldB => exact orRaise_raisedOnly (writeBlock_beyond s.advance (bs := bcdDigits (s.getV x)) (by simp) h) _
  case storeRegs =>
    exact orRaise_raisedOnly (writeBlock_beyond s.advance (bs := s.regsUpTo x) (by simp) (by rw [State.regsUpTo_length]; exact h)) _
  case loadRegs => exact orRaise_raisedOnly (readBlock_beyond s.advance x.val.succ_pos h) _

/-! ### Fx55 in range, and the fetch after it -/

theorem exec_storeRegs_inRange (x : Reg) (s : State) (h : s.indexAddr + x.val ≤ 0xFFF) :
    exec (.storeRegs x) s = complete (s.advance.writeBytes s.indexAddr (s.regsUpTo x)) := by
  have hw : writeBlock s.advance s.indexAddr (s.regsUpTo x) = .ok (s.advance.writeBytes s.indexAddr (s.regsUpTo x)) :=
    writeBlock_ok _ _ _ (Or.inr (by rw [State.regsUpTo_length]; omega))
  change orRaise s (writeBlock s.advance s.indexAddr (s.regsUpTo x)) complete = _
  rw [hw, orRaise]

/-- Read after Fx55's write: `V[r]` stands `r` bytes from I (44_index_memory.md R96). -/
theorem State.readByte_writeBytes_regsUpTo (x r : Reg) (s : State) (hwf : Memory.wf s.cfg s.mem)
    (h : s.indexAddr + x.val ≤ 0xFFF) (hr : r ≤ x) :
    (s.advance.writeBytes s.indexAddr (s.regsUpTo x)).readByte (s.indexAddr + r.val) = s.getV r := by
  have hlen : s.indexAddr + (s.regsUpTo x).length ≤ memSize := by rw [State.regsUpTo_length, memSize]; omega
  have hin : s.indexAddr ≤ s.indexAddr + r.val ∧ s.indexAddr + r.val < s.indexAddr + (s.regsUpTo x).length := by
    have : r.val ≤ x.val := hr
    rw [State.regsUpTo_length]
    omega
  rw [State.readByte_writeBytes s.advance hwf _ _ hlen, if_pos hin, Nat.add_sub_cancel_left, State.regsUpTo_getD s x r hr]

theorem fetch_ok_at {s : State} {a : Nat} (hpc : s.pc.toNat = a) (h : a + 1 ≤ 0xFFF) :
    fetch s = .ok (s.readByte a ++ s.readByte (a + 1)) := by
  subst hpc
  exact fetch_ok s h

/-- Settles O37: the advanced pc is I, where the store has put V0 and V1. -/
theorem storedBytesAreFetchedNext : Obligations.StoredBytesAreFetchedNext := by
  intro x s hwf hx hI h
  refine ⟨_, exec_storeRegs_inRange x s h, ?_⟩
  have h1 : 1 ≤ x.val := hx
  have hread (r : Reg) (hr : r ≤ x) := State.readByte_writeBytes_regsUpTo x r s hwf h hr
  rw [fetch_ok_at (a := s.indexAddr) (by simp [State.indexAddr, hI]) (by omega)]
  exact congrArg Except.ok (congrArg₂ (· ++ ·) (hread 0 (Fin.zero_le x)) (hread 1 hx))

/-! ### Who writes memory -/

/-- A byte reads the same in states with the same cells and parameters. -/
theorem State.readByte_congr {s t : State} (hmem : t.mem = s.mem) (hcfg : t.cfg = s.cfg) (a : Nat) :
    t.readByte a = s.readByte a := by
  rw [State.readByte, State.readByte, hmem, hcfg]

/-- Settles O53: a step that completes no instruction leaves memory, and one that completes is not a store. -/
theorem onlyStoresChangeMemory : Obligations.OnlyStoresChangeMemory := by
  intro s t h hnostore a
  cases stepCase_of_next h with
  | again e a' hs ht => subst ht; rfl
  | raised e hs hc ht => subst ht; rfl
  | unknown w hs hw hd ht => subst ht; rfl
  | completed i hs hi hc => exact State.readByte_congr (hc.mem (hnostore i hi)) hc.cfg a

end Sys2Proof.Machine
end

section
/-! PROOFS. The decoder and the encoder against the opcode map (30_encoding.md R48, R53, R55, R57): a word decodes to the
instruction whose row it matches, with that word's own fields as operands. -/

namespace Sys2Proof

/-! ### A word's fields, put back in their places (R48) -/

/-- The opcode family in bits 15:12 of a word that is otherwise zero. -/
def placeOp (f : BitVec 4) : Word := f.setWidth 16 <<< 12

theorem placeOp_fieldOp (w : Word) : placeOp (fieldOp w) = w &&& 0xF000#16 := by
  ext i hi
  interval_cases i <;> simp [placeOp, fieldOp]

theorem placeX_fieldX (w : Word) : placeX (fieldX w) = w &&& 0x0F00#16 := by
  change (w.extractLsb' 8 4).setWidth 16 <<< 8 = _
  ext i hi
  interval_cases i <;> simp

theorem placeY_fieldY (w : Word) : placeY (fieldY w) = w &&& 0x00F0#16 := by
  change (w.extractLsb' 4 4).setWidth 16 <<< 4 = _
  ext i hi
  interval_cases i <;> simp

theorem placeN_fieldN (w : Word) : placeN (fieldN w).toNat = w &&& 0x000F#16 := by
  rw [placeN, BitVec.ofNat_toNat, BitVec.setWidth_eq, fieldN]
  ext i hi
  interval_cases i <;> simp

theorem placeNN_fieldNN (w : Word) : placeNN (fieldNN w) = w &&& 0x00FF#16 := by
  ext i hi
  interval_cases i <;> simp [placeNN, fieldNN]

theorem placeNNN_fieldNNN (w : Word) : placeNNN (fieldNNN w) = w &&& 0x0FFF#16 := by
  ext i hi
  interval_cases i <;> simp [placeNNN, fieldNNN]

theorem and_mask_op_n (w : Word) : w &&& 0xF00F#16 = placeOp (fieldOp w) ||| placeN (fieldN w).toNat := by
  rw [placeOp_fieldOp, placeN_fieldN, ← BitVec.and_or_distrib_left]
  rfl

theorem and_mask_op_nn (w : Word) : w &&& 0xF0FF#16 = placeOp (fieldOp w) ||| placeNN (fieldNN w) := by
  rw [placeOp_fieldOp, placeNN_fieldNN, ← BitVec.and_or_distrib_left]
  rfl

theorem fieldOp_and (w m : Word) : fieldOp (w &&& m) = fieldOp w &&& fieldOp m := BitVec.extractLsb'_and

theorem fieldN_and (w m : Word) : fieldN (w &&& m) = fieldN w &&& fieldN m := BitVec.extractLsb'_and

theorem fieldNN_and (w m : Word) : fieldNN (w &&& m) = fieldNN w &&& fieldNN m := BitVec.extractLsb'_and

/-! ### The match and mask columns as fields of the word (R55) -/

theorem OpcodeRow.matches_iff (r : OpcodeRow) (w : Word) : r.matches w = true ↔ w &&& r.mask = r.bits := by
  rw [OpcodeRow.matches, decide_eq_true_iff]

/-- A row with the mask F000 is matched by its family. -/
theorem matches_iff_op {i : Instr} {str : String} {b : Word} (hr : i.row = ⟨str, b, 0xF000#16⟩)
    (hb : b &&& 0xF000#16 = b) (w : Word) : i.row.matches w = true ↔ fieldOp w = fieldOp b := by
  rw [hr, OpcodeRow.matches_iff]
  change w &&& 0xF000#16 = b ↔ _
  constructor
  · rintro rfl
    rw [fieldOp_and]
    exact BitVec.and_allOnes.symm
  · intro hop
    rw [← hb, ← placeOp_fieldOp, hop, placeOp_fieldOp]

/-- A row with the mask F00F is matched by its family and low nibble. -/
theorem matches_iff_op_n {i : Instr} {str : String} {b : Word} (hr : i.row = ⟨str, b, 0xF00F#16⟩)
    (hb : b &&& 0xF00F#16 = b) (w : Word) : i.row.matches w = true ↔ fieldOp w = fieldOp b ∧ fieldN w = fieldN b := by
  rw [hr, OpcodeRow.matches_iff]
  change w &&& 0xF00F#16 = b ↔ _
  constructor
  · rintro rfl
    rw [fieldOp_and, fieldN_and]
    exact ⟨BitVec.and_allOnes.symm, BitVec.and_allOnes.symm⟩
  · rintro ⟨hop, hn⟩
    rw [← hb, and_mask_op_n, hop, hn, and_mask_op_n]

/-- A row with the mask F0FF is matched by its family and low byte. -/
theorem matches_iff_op_nn {i : Instr} {str : String} {b : Word} (hr : i.row = ⟨str, b, 0xF0FF#16⟩)
    (hb : b &&& 0xF0FF#16 = b) (w : Word) : i.row.matches w = true ↔ fieldOp w = fieldOp b ∧ fieldNN w = fieldNN b := by
  rw [hr, OpcodeRow.matches_iff]
  change w &&& 0xF0FF#16 = b ↔ _
  constructor
  · rintro rfl
    rw [fieldOp_and, fieldNN_and]
    exact ⟨BitVec.and_allOnes.symm, BitVec.and_allOnes.symm⟩
  · rintro ⟨hop, hnn⟩
    rw [← hb, and_mask_op_nn, hop, hnn, and_mask_op_nn]

/-- A row with the mask FFFF is matched by one word. -/
theorem matches_iff_word {i : Instr} {str : String} {b : Word} (hr : i.row = ⟨str, b, 0xFFFF#16⟩) (w : Word) :
    i.row.matches w = true ↔ w = b := by
  rw [hr, OpcodeRow.matches_iff]
  change w &&& BitVec.allOnes 16 = b ↔ _
  rw [BitVec.and_allOnes]

/-! ### An instruction with the operands of a word -/

/-- The instruction of `i`'s row whose operands are the fields of `w` (R48). -/
def Instr.withOperandsOf (w : Word) : Instr → Instr
  | .cls => .cls
  | .ret => .ret
  | .jp _ => .jp (fieldNNN w)
  | .call _ => .call (fieldNNN w)
  | .seImm _ _ => .seImm (fieldX w) (fieldNN w)
  | .sneImm _ _ => .sneImm (fieldX w) (fieldNN w)
  | .seReg _ _ => .seReg (fieldX w) (fieldY w)
  | .ldImm _ _ => .ldImm (fieldX w) (fieldNN w)
  | .addImm _ _ => .addImm (fieldX w) (fieldNN w)
  | .ldReg _ _ => .ldReg (fieldX w) (fieldY w)
  | .orReg _ _ => .orReg (fieldX w) (fieldY w)
  | .andReg _ _ => .andReg (fieldX w) (fieldY w)
  | .xorReg _ _ => .xorReg (fieldX w) (fieldY w)
  | .addReg _ _ => .addReg (fieldX w) (fieldY w)
  | .subReg _ _ => .subReg (fieldX w) (fieldY w)
  | .shr _ _ => .shr (fieldX w) (fieldY w)
  | .subn _ _ => .subn (fieldX w) (fieldY w)
  | .shl _ _ => .shl (fieldX w) (fieldY w)
  | .sneReg _ _ => .sneReg (fieldX w) (fieldY w)
  | .ldI _ => .ldI (fieldNNN w)
  | .jpV0 _ => .jpV0 (fieldNNN w)
  | .rnd _ _ => .rnd (fieldX w) (fieldNN w)
  | .drw _ _ _ => .drw (fieldX w) (fieldY w) (fieldN w).toNat
  | .skp _ => .skp (fieldX w)
  | .sknp _ => .sknp (fieldX w)
  | .ldVxDt _ => .ldVxDt (fieldX w)
  | .ldVxK _ => .ldVxK (fieldX w)
  | .ldDtVx _ => .ldDtVx (fieldX w)
  | .ldStVx _ => .ldStVx (fieldX w)
  | .addI _ => .addI (fieldX w)
  | .ldF _ => .ldF (fieldX w)
  | .ldB _ => .ldB (fieldX w)
  | .storeRegs _ => .storeRegs (fieldX w)
  | .loadRegs _ => .loadRegs (fieldX w)

@[simp] theorem Instr.row_withOperandsOf (w : Word) (i : Instr) : (i.withOperandsOf w).row = i.row := by
  cases i <;> rfl

theorem Instr.wellFormed_withOperandsOf (w : Word) (i : Instr) : (i.withOperandsOf w).wellFormed = true := by
  cases i
  case drw => exact decide_eq_true (fieldN w).isLt
  all_goals rfl

/-- The operands of a word are its bits outside the row's mask. -/
theorem Instr.operandBits_withOperandsOf (w : Word) (i : Instr) :
    (i.withOperandsOf w).operandBits = w &&& ~~~i.row.mask := by
  have hnnn : placeNNN (fieldNNN w) = w &&& ~~~0xF000#16 := placeNNN_fieldNNN w
  have hx : placeX (fieldX w) = w &&& ~~~0xF0FF#16 := placeX_fieldX w
  have hxnn : placeX (fieldX w) ||| placeNN (fieldNN w) = w &&& ~~~0xF000#16 := by
    rw [placeX_fieldX, placeNN_fieldNN, ← BitVec.and_or_distrib_left]
    rfl
  have hxy : placeX (fieldX w) ||| placeY (fieldY w) = w &&& ~~~0xF00F#16 := by
    rw [placeX_fieldX, placeY_fieldY, ← BitVec.and_or_distrib_left]
    rfl
  have hxyn : placeX (fieldX w) ||| placeY (fieldY w) ||| placeN (fieldN w).toNat = w &&& ~~~0xF000#16 := by
    rw [placeX_fieldX, placeY_fieldY, placeN_fieldN, ← BitVec.and_or_distrib_left, ← BitVec.and_or_distrib_left]
    rfl
  cases i
  case cls | ret => exact BitVec.and_zero.symm
  case jp | call | ldI | jpV0 => exact hnnn
  case seImm | sneImm | ldImm | addImm | rnd => exact hxnn
  case drw => exact hxyn
  case seReg | sneReg | ldReg | orReg | andReg | xorReg | addReg | subReg | shr | subn | shl => exact hxy
  case skp | sknp | ldVxDt | ldVxK | ldDtVx | ldStVx | addI | ldF | ldB | storeRegs | loadRegs => exact hx

/-- A row's fixed bits and the operands make up the word. -/
theorem encode_withOperandsOf {w : Word} {i : Instr} (h : i.row.matches w = true) : encode (i.withOperandsOf w) = w := by
  rw [encode, Instr.row_withOperandsOf, Instr.operandBits_withOperandsOf, ← (OpcodeRow.matches_iff _ _).1 h,
    ← BitVec.and_or_distrib_left, BitVec.or_not_self, BitVec.and_allOnes]

/-- The fields of a well-formed instruction's word are its operands. -/
theorem Instr.withOperandsOf_encode {i : Instr} (h : i.wellFormed = true) : i.withOperandsOf (encode i) = i := by
  cases i
  case cls | ret => rfl
  case jp nnn | call nnn | ldI nnn | jpV0 nnn =>
    simp [withOperandsOf, encode, row, operandBits, fieldNNN, BitVec.extractLsb'_or, extract_placeNNN]
  case drw x y n =>
    have hn : n < 16 := of_decide_eq_true h
    simp [withOperandsOf, encode, row, operandBits, fieldX, fieldY, fieldN, BitVec.extractLsb'_or, extract_placeX,
      extract_placeY, extract_placeN, hn]
  case seImm x nn | sneImm x nn | ldImm x nn | addImm x nn | rnd x nn =>
    simp [withOperandsOf, encode, row, operandBits, fieldX, fieldNN, BitVec.extractLsb'_or, extract_placeX, extract_placeNN]
  case seReg x y | sneReg x y | ldReg x y | orReg x y | andReg x y | xorReg x y | addReg x y | subReg x y | shr x y
      | subn x y | shl x y =>
    simp [withOperandsOf, encode, row, operandBits, fieldX, fieldY, BitVec.extractLsb'_or, extract_placeX, extract_placeY]
  case skp x | sknp x | ldVxDt x | ldVxK x | ldDtVx x | ldStVx x | addI x | ldF x | ldB x | storeRegs x | loadRegs x =>
    simp [withOperandsOf, encode, row, operandBits, fieldX, BitVec.extractLsb'_or, extract_placeX]

/-! ### The decoder family by family -/

theorem decode_of_op0 {w : Word} (h : fieldOp w = 0x0#4) :
    decode w = if w = 0x00E0#16 then .ok .cls else if w = 0x00EE#16 then .ok .ret else .error (.unknownInstruction w) := by
  unfold decode
  rw [h]
  rfl

theorem decode_of_op5 {w : Word} (h : fieldOp w = 0x5#4) :
    decode w = if fieldN w = 0#4 then .ok (.seReg (fieldX w) (fieldY w)) else .error (.unknownInstruction w) := by
  unfold decode
  rw [h]
  rfl

theorem decode_of_op9 {w : Word} (h : fieldOp w = 0x9#4) :
    decode w = if fieldN w = 0#4 then .ok (.sneReg (fieldX w) (fieldY w)) else .error (.unknownInstruction w) := by
  unfold decode
  rw [h]
  rfl

theorem decode_of_op8 {w : Word} (h : fieldOp w = 0x8#4) : decode w = decode8 w := by
  unfold decode
  rw [h]
  rfl

theorem decode_of_opE {w : Word} (h : fieldOp w = 0xE#4) : decode w = decodeE w := by
  unfold decode
  rw [h]
  rfl

theorem decode_of_opF {w : Word} (h : fieldOp w = 0xF#4) : decode w = decodeF w := by
  unfold decode
  rw [h]
  rfl

/-- A word that matches a row decodes to the row's instruction, with the word's fields as operands (R53, R55). -/
theorem decode_of_matches {w : Word} {i : Instr} (h : i.row.matches w = true) : decode w = .ok (i.withOperandsOf w) := by
  cases i
  case cls | ret =>
    obtain rfl := (matches_iff_word rfl w).1 h
    rfl
  case jp | call | seImm | sneImm | ldImm | addImm | ldI | jpV0 | rnd | drw =>
    have hop := (matches_iff_op rfl rfl w).1 h
    unfold decode
    rw [hop]
    rfl
  case seReg =>
    obtain ⟨hop, hn⟩ := (matches_iff_op_n rfl rfl w).1 h
    rw [decode_of_op5 hop]
    exact if_pos hn
  case sneReg =>
    obtain ⟨hop, hn⟩ := (matches_iff_op_n rfl rfl w).1 h
    rw [decode_of_op9 hop]
    exact if_pos hn
  case ldReg | orReg | andReg | xorReg | addReg | subReg | shr | subn | shl =>
    obtain ⟨hop, hn⟩ := (matches_iff_op_n rfl rfl w).1 h
    rw [decode_of_op8 hop, decode8, hn]
    rfl
  case skp | sknp =>
    obtain ⟨hop, hnn⟩ := (matches_iff_op_nn rfl rfl w).1 h
    rw [decode_of_opE hop, decodeE, hnn]
    rfl
  case ldVxDt | ldVxK | ldDtVx | ldStVx | addI | ldF | ldB | storeRegs | loadRegs =>
    obtain ⟨hop, hnn⟩ := (matches_iff_op_nn rfl rfl w).1 h
    rw [decode_of_opF hop, decodeF, hnn]
    rfl

theorem matches_of_decode8 {w : Word} {i : Instr} (hop : fieldOp w = 0x8#4) (h : decode8 w = .ok i) :
    i.row.matches w = true := by
  unfold decode8 at h
  split at h <;> cases h
  all_goals
    refine (matches_iff_op_n rfl rfl w).2 ?_
    exact ⟨hop, BitVec.eq_of_toNat_eq ‹_›⟩

theorem matches_of_decodeE {w : Word} {i : Instr} (hop : fieldOp w = 0xE#4) (h : decodeE w = .ok i) :
    i.row.matches w = true := by
  unfold decodeE at h
  split at h <;> cases h
  all_goals
    refine (matches_iff_op_nn rfl rfl w).2 ?_
    exact ⟨hop, BitVec.eq_of_toNat_eq ‹_›⟩

theorem matches_of_decodeF {w : Word} {i : Instr} (hop : fieldOp w = 0xF#4) (h : decodeF w = .ok i) :
    i.row.matches w = true := by
  unfold decodeF at h
  split at h <;> cases h
  all_goals
    refine (matches_iff_op_nn rfl rfl w).2 ?_
    exact ⟨hop, BitVec.eq_of_toNat_eq ‹_›⟩

/-- A word matches the row of the instruction it decodes to (R53, R55). The decoder's arm for family `k` is case `h_(k+1)`. -/
theorem matches_of_decode {w : Word} {i : Instr} (h : decode w = .ok i) : i.row.matches w = true := by
  unfold decode at h
  split at h
  case h_1 =>
    split at h
    · cases h
      exact (matches_iff_word rfl w).2 ‹_›
    · split at h <;> cases h
      exact (matches_iff_word rfl w).2 ‹_›
  case h_6 hop | h_10 hop =>
    split at h <;> cases h
    refine (matches_iff_op_n rfl rfl w).2 ?_
    exact ⟨BitVec.eq_of_toNat_eq hop, ‹_›⟩
  case h_9 hop => exact matches_of_decode8 (BitVec.eq_of_toNat_eq hop) h
  case h_15 hop => exact matches_of_decodeE (BitVec.eq_of_toNat_eq hop) h
  case h_16 hop => exact matches_of_decodeF (BitVec.eq_of_toNat_eq hop) h
  case h_17 => cases h
  all_goals
    cases h
    exact (matches_iff_op rfl rfl w).2 (BitVec.eq_of_toNat_eq ‹_›)

/-! ### The opcode map -/

/-- Settles O3: `decode_of_matches` and `matches_of_decode`, and the operands do not change the row. -/
theorem decodeFollowsTheOpcodeMap : Obligations.DecodeFollowsTheOpcodeMap := by
  intro w j
  constructor
  · exact fun h => ⟨j.withOperandsOf w, decode_of_matches h, j.row_withOperandsOf w⟩
  · rintro ⟨i, hd, hrow⟩
    exact hrow ▸ matches_of_decode hd

/-! ### Decoding and encoding are inverse -/

/-- Settles O2: the word matches the instruction's row, so it is the row's fixed bits with its own fields as operands. -/
theorem encodeOfDecodeIsTheWord : Obligations.EncodeOfDecodeIsTheWord := by
  intro w i h
  have hm := matches_of_decode h
  have hi : i.withOperandsOf w = i := Except.ok.inj ((decode_of_matches hm).symm.trans h)
  rw [← hi]
  exact ⟨encode_withOperandsOf hm, i.wellFormed_withOperandsOf w⟩

/-- The encoder stays inside the row, for every instruction (R55). -/
theorem encodesInRow (i : Instr) : Laws.EncodesInRow.Statement i := by
  cases i
  open Laws in
  exacts [EncodesInRow.cls, EncodesInRow.ret, EncodesInRow.jp _, EncodesInRow.call _, EncodesInRow.seImm _ _,
    EncodesInRow.sneImm _ _, EncodesInRow.seReg _ _, EncodesInRow.ldImm _ _, EncodesInRow.addImm _ _,
    EncodesInRow.ldReg _ _, EncodesInRow.orReg _ _, EncodesInRow.andReg _ _, EncodesInRow.xorReg _ _,
    EncodesInRow.addReg _ _, EncodesInRow.subReg _ _, EncodesInRow.shr _ _, EncodesInRow.subn _ _,
    EncodesInRow.shl _ _, EncodesInRow.sneReg _ _, EncodesInRow.ldI _, EncodesInRow.jpV0 _, EncodesInRow.rnd _ _,
    EncodesInRow.drw _ _ _, EncodesInRow.skp _, EncodesInRow.sknp _, EncodesInRow.ldVxDt _, EncodesInRow.ldVxK _,
    EncodesInRow.ldDtVx _, EncodesInRow.ldStVx _, EncodesInRow.addI _, EncodesInRow.ldF _, EncodesInRow.ldB _,
    EncodesInRow.storeRegs _, EncodesInRow.loadRegs _]

/-- Settles O1: the encoded word matches the instruction's row, and its fields are the instruction's operands. -/
theorem decodeOfEncodeIsTheInstruction : Obligations.DecodeOfEncodeIsTheInstruction := by
  intro i hwf
  rw [decode_of_matches (encodesInRow i hwf), i.withOperandsOf_encode hwf]

/-! ### The words that are no instruction (R57) -/

theorem decode8_eq_error_iff (w : Word) : decode8 w = .error (.unknownInstruction w) ↔
    fieldN w ∈ [0x8#4, 0x9#4, 0xA#4, 0xB#4, 0xC#4, 0xD#4, 0xF#4] := by
  unfold decode8
  split
  case h_10 =>
    have hlt := (fieldN w).isLt
    simp_all [← BitVec.toNat_inj]
    omega
  all_goals simp [← BitVec.toNat_inj, *]

theorem decodeE_eq_error_iff (w : Word) : decodeE w = .error (.unknownInstruction w) ↔ fieldNN w ∉ [0x9E#8, 0xA1#8] := by
  unfold decodeE
  split <;> simp_all [← BitVec.toNat_inj]

theorem decodeF_eq_error_iff (w : Word) : decodeF w = .error (.unknownInstruction w) ↔
    fieldNN w ∉ [0x07#8, 0x0A#8, 0x15#8, 0x18#8, 0x1E#8, 0x29#8, 0x33#8, 0x55#8, 0x65#8] := by
  unfold decodeF
  split <;> simp_all [← BitVec.toNat_inj]

/-- The ten families that are one row each have no word that is no instruction. -/
theorem decode_isOk_of_one_row_family {w : Word} (h : fieldOp w ∉ [0x0#4, 0x5#4, 0x8#4, 0x9#4, 0xE#4, 0xF#4]) :
    ∃ i, decode w = .ok i := by
  simp only [List.mem_cons, List.not_mem_nil, ← BitVec.toNat_inj, not_or] at h
  unfold decode
  split
  case h_17 =>
    have hlt := (fieldOp w).isLt
    simp_all
    omega
  all_goals simp_all

/-- Settles O4: families 0, 5, 8, 9, E and F reject some of their words, the other ten none. -/
theorem unknownWordsByFamily : Obligations.UnknownWordsByFamily := by
  intro w
  by_cases h0 : fieldOp w = 0x0#4
  · rw [decode_of_op0 h0, h0]
    by_cases hcls : w = 0x00E0#16 <;> simp [hcls]
  by_cases h5 : fieldOp w = 0x5#4
  · simp [decode_of_op5 h5, h5]
  by_cases h8 : fieldOp w = 0x8#4
  · simp [decode_of_op8 h8, h8, decode8_eq_error_iff]
  by_cases h9 : fieldOp w = 0x9#4
  · simp [decode_of_op9 h9, h9]
  by_cases hE : fieldOp w = 0xE#4
  · simp [decode_of_opE hE, hE, decodeE_eq_error_iff]
  by_cases hF : fieldOp w = 0xF#4
  · simp [decode_of_opF hF, hF, decodeF_eq_error_iff]
  obtain ⟨i, hi⟩ := decode_isOk_of_one_row_family (w := w) (by simp [h0, h5, h8, h9, hE, hF])
  simp [hi, h0, h5, h8, h9, hE, hF]

/-! ### Sample words -/

/-- Settles O5, by evaluation of the decoder on the ten words. -/
theorem sampleWordsDecode : Obligations.SampleWordsDecode := by
  unfold Obligations.SampleWordsDecode
  decide

end Sys2Proof
end

section
/-! PROOFS. One instruction cycle of a loaded, running block (30_encoding.md R50 to R56): the fetch, the decoded instruction, the
word that is no instruction, and what the step returns. -/

namespace Sys2Proof.Machine

/-! ### The decoded instruction and the unknown word -/

theorem cycle_of_instr {s : State} {w : Word} {i : Instr} (hw : fetch s = .ok w) (hd : decode w = .ok i) :
    cycle s = exec i s := by
  simp only [cycle, hw, orRaise, hd]

theorem cycle_of_unknown {s : State} {w : Word} {r : DecodeReject} (hw : fetch s = .ok w) (hd : decode w = .error r) :
    cycle s = execUnknown w s := by
  simp only [cycle, hw, orRaise, hd]

/-- Two bytes decode as their word does (R47). -/
theorem decode_of_decodeBytes {hi lo : Byte} {i : Instr} (h : decodeBytes [hi, lo] = .ok (i, [])) :
    decode (hi ++ lo) = .ok i := by
  unfold decodeBytes wordOfBytes at h
  cases hd : decode (hi ++ lo) with
  | ok j => simpa [hd, Except.map] using h
  | error r => simp [hd, Except.map] at h

theorem execUnknown_changesOnly (w : Word) (s : State) :
    ChangesOnly [.pc, .stepResult] s (s.advance.setStepResult ⟨.ok, false, some ⟨w, s.pc⟩⟩) := by
  intro p hp
  cases p <;> simp_all [Part.same]

/-- Settles O6: the two bytes at pc are the word the cycle decodes. -/
theorem stepRunsTheDecodedInstruction : Obligations.StepRunsTheDecodedInstruction := by
  intro s i hp hs hpc hd
  rw [step_of_running s hp hs]
  exact cycle_of_instr (fetch_ok s (by omega)) (decode_of_decodeBytes hd)

/-- Settles O7: a failed fetch is raised before anything is written. -/
theorem fetchReadsTwoBytesOrFails : Obligations.FetchReadsTwoBytesOrFails := by
  intro s
  refine ⟨fun hpc => fetch_ok s (by omega), fun hp hs hpc => ?_⟩
  have haddr : (if 0xFFF < s.pc.toNat then s.pc.toNat else 0x1000) = if s.pc.toNat = 0xFFF then 0x1000 else s.pc.toNat := by
    split <;> split <;> omega
  rw [step_of_running s hp hs, ← haddr]
  exact orRaise_raisedOnly (fetch_out s hpc) _

/-- Settles O8: the cycle of a rejected word is `execUnknown`, which writes pc and the result only. -/
theorem unknownWordOnlyAdvances : Obligations.UnknownWordOnlyAdvances := by
  intro s w hp hs hw hd
  refine ⟨_, ?_, rfl, rfl, execUnknown_changesOnly w s⟩
  rw [step_of_running s hp hs, cycle_of_unknown hw hd]
  rfl

/-! ### What the step returns -/

/-- The next step of a running block meets a word that is no instruction, and `d` names it and its address (R56). -/
def MeetsUnknown (s : State) (d : Diagnostic) : Prop :=
  fetch s = .ok d.word ∧ decode d.word = .error (.unknownInstruction d.word) ∧ d.address = s.pc

theorem nextInstr_eq_some {s : State} {i : Instr} (h : nextInstr s = some i) :
    ∃ w, fetch s = .ok w ∧ decode w = .ok i := by
  unfold nextInstr at h
  split at h
  · cases h
  · next w hw =>
    split at h <;> cases h
    exact ⟨w, hw, ‹_›⟩

theorem nextInstr_of_unknown {s : State} {d : Diagnostic} (h : MeetsUnknown s d) : nextInstr s = none := by
  obtain ⟨hw, hd, -⟩ := h
  simp [nextInstr, hw, hd]

theorem StepRaises.not_meetsUnknown {s : State} {e : FatalError} (h : StepRaises s e) (d : Diagnostic) :
    ¬ MeetsUnknown s d := by
  intro hu
  obtain he | ⟨i, hi, -⟩ := h
  · have ⟨hw, _, _⟩ := hu
    cases he.symm.trans hw
  · cases hi.symm.trans (nextInstr_of_unknown hu)

/-- A diagnostic names the fetched word and its address, so there is only one. -/
theorem meetsUnknown_iff {s : State} {w : Word} (hw : fetch s = .ok w) (hd : decode w = .error (.unknownInstruction w))
    (d : Diagnostic) : MeetsUnknown s d ↔ d = ⟨w, s.pc⟩ := by
  constructor
  · rintro ⟨hw', -, ha⟩
    cases hw.symm.trans hw'
    cases d
    simpa using ha
  · rintro rfl
    exact ⟨hw, hd, rfl⟩

/-- Settles O51, case by case of what the step answered. -/
theorem stepResultTellsWhatHappened : Obligations.StepResultTellsWhatHappened := by
  intro s t hs h
  cases stepCase_of_next h with
  | again e a hs' ht => cases hs.symm.trans hs'
  | raised e _ hc ht =>
    subst ht
    have hdiag (d : Diagnostic) : none = some d ↔ MeetsUnknown s d := by simp [hc.not_meetsUnknown d]
    exact ⟨_, rfl, by simp [State.raised], by simp [State.raised], hdiag⟩
  | unknown w _ hw hd ht =>
    subst ht
    have hnone : nextInstr s = none := nextInstr_of_unknown (d := ⟨w, s.pc⟩) ⟨hw, hd, rfl⟩
    have hdiag (d : Diagnostic) : some ⟨w, s.pc⟩ = some d ↔ MeetsUnknown s d := by
      rw [meetsUnknown_iff hw hd, Option.some_inj, eq_comm]
    exact ⟨_, rfl, by simp [hs], by simp [hnone], hdiag⟩
  | completed i _ hi hc =>
    have hrun : t.status = .running := hc.status.trans hs
    have hdiag (d : Diagnostic) : none = some d ↔ MeetsUnknown s d := by
      have hnot : ¬ MeetsUnknown s d := fun hu => by cases hi.symm.trans (nextInstr_of_unknown hu)
      simp [hnot]
    exact ⟨_, hc.result, by simp [hrun], by simp [hrun, hi], hdiag⟩

end Sys2Proof.Machine
end

section
/-! PROOFS. The display instructions (41_display.md R62 to R67): the state a clear or a draw completes in, pixel by pixel, and the
same draw twice. -/

namespace Sys2Proof.Machine

/-! ### 00E0 -/

@[simp] theorem State.setFb_pixel (s : State) (f : Framebuffer) (row : Fin 32) (col : Fin 64) :
    (s.setFb f).pixel row col = Framebuffer.get f (row, col) := rfl

@[simp] theorem blankFb_get (p : Fin 32 × Fin 64) : Framebuffer.get blankFb p = false := by
  simp [Framebuffer.get, blankFb]

/-- Settles O11: the one next state of `execCls` has the blank framebuffer. -/
theorem clsTurnsEveryPixelOff : Obligations.ClsTurnsEveryPixelOff := by
  intro s
  refine ⟨_, rfl, fun row col => by simp, rfl, rfl, rfl, fun p hp => ?_⟩
  cases p with
  | pixel row col | drawFlag | pc | stepResult => simp at hp
  | _ => rfl

/-! ### Dxyn in range: the state after it -/

/-- The pixels the sprite of `n` bytes at I turns over, in the order of its bytes and bits (R63). -/
def State.coveredPixels (s : State) (x y : Reg) (n : Nat) : List (Fin 32 × Fin 64) :=
  spritePixels s.cfg.edgePolicy (startRow (s.getV y)) (startColumn (s.getV x)) (s.bytesAt s.indexAddr n)

/-- The state Dxyn completes in when its bytes lie in memory. -/
def State.drawn (s : State) (x y : Reg) (n : Nat) : State :=
  ((s.advance.drawSprite x y (s.bytesAt s.indexAddr n)).setDrawFlag true).setStepResult ⟨.ok, true, none⟩

theorem exec_drw_inRange (x y : Reg) (n : Nat) (s : State) (h : n = 0 ∨ s.indexAddr + n ≤ 0x1000) :
    exec (.drw x y n) s = .next (s.drawn x y n) := by
  change orRaise s (readBlock s.advance s.indexAddr n) _ = _
  rw [readBlock_ok _ _ _ h]
  rfl

/-- The list of the model's draw and the statements' `Covers` name the same pixels. -/
theorem State.mem_coveredPixels (s : State) (x y : Reg) (n : Nat) (row : Fin 32) (col : Fin 64) :
    (row, col) ∈ s.coveredPixels x y n ↔ Covers s x y n row col := by
  rw [State.coveredPixels, mem_spritePixels, State.bytesAt_length]
  refine exists_congr fun r => exists_congr fun c => and_congr_right fun hr => ?_
  rw [State.bytesAt_getD s s.indexAddr n r hr]

theorem State.coveredPixels_nodup (s : State) (x y : Reg) {n : Nat} (hn : n < 16) : (s.coveredPixels x y n).Nodup :=
  spritePixels_nodup _ _ _ _ (by rw [State.bytesAt_length]; omega)

theorem State.drawn_fb (s : State) (x y : Reg) (n : Nat) : (s.drawn x y n).fb = (drawPixels s.fb (s.coveredPixels x y n)).1 := rfl

theorem State.drawn_vf (s : State) (x y : Reg) (n : Nat) :
    (s.drawn x y n).getV vf = flagByte (drawPixels s.fb (s.coveredPixels x y n)).2 :=
  State.getV_setV_same _ _ _

theorem State.drawn_pixel_covered {s : State} {x y : Reg} {n : Nat} (hn : n < 16) {row : Fin 32} {col : Fin 64}
    (h : Covers s x y n row col) : (s.drawn x y n).pixel row col = !s.pixel row col := by
  rw [State.pixel_eq_get, State.drawn_fb, drawPixels_get _ _ (s.coveredPixels_nodup x y hn),
    if_pos ((s.mem_coveredPixels x y n row col).2 h), State.pixel_eq_get]

theorem State.drawn_pixel_not_covered {s : State} {x y : Reg} {n : Nat} (hn : n < 16) {row : Fin 32} {col : Fin 64}
    (h : ¬ Covers s x y n row col) : (s.drawn x y n).pixel row col = s.pixel row col := by
  rw [State.pixel_eq_get, State.drawn_fb, drawPixels_get _ _ (s.coveredPixels_nodup x y hn),
    if_neg (mt (s.mem_coveredPixels x y n row col).1 h), State.pixel_eq_get]

theorem flagByte_eq_one (b : Bool) : flagByte b = 1 ↔ b = true := by
  cases b <;> decide

theorem flagByte_eq_zero (b : Bool) : flagByte b = 0 ↔ ¬ b = true := by
  cases b <;> decide

/-- The collision (R66): some covered pixel was on before the draw. -/
theorem State.drawPixels_coveredPixels_hit (s : State) (x y : Reg) {n : Nat} (hn : n < 16) :
    (drawPixels s.fb (s.coveredPixels x y n)).2 = true ↔ ∃ row col, Covers s x y n row col ∧ s.pixel row col = true := by
  rw [drawPixels_hit _ _ (s.coveredPixels_nodup x y hn), Prod.exists]
  simp only [State.mem_coveredPixels, State.pixel_eq_get]

theorem State.drawn_vf_eq_one (s : State) (x y : Reg) {n : Nat} (hn : n < 16) :
    (s.drawn x y n).getV vf = 1 ↔ ∃ row col, Covers s x y n row col ∧ s.pixel row col = true := by
  rw [State.drawn_vf, flagByte_eq_one, s.drawPixels_coveredPixels_hit x y hn]

theorem State.drawn_vf_eq_zero (s : State) (x y : Reg) {n : Nat} (hn : n < 16) :
    (s.drawn x y n).getV vf = 0 ↔ ¬ ∃ row col, Covers s x y n row col ∧ s.pixel row col = true := by
  rw [State.drawn_vf, flagByte_eq_zero, s.drawPixels_coveredPixels_hit x y hn]

theorem State.drawn_getV_other (s : State) (x y : Reg) (n : Nat) {q : Reg} (h : q ≠ vf) :
    (s.drawn x y n).getV q = s.getV q :=
  State.getV_drawSprite_other s.advance x y _ h

theorem State.drawn_changesOnly (s : State) (x y : Reg) (n : Nat) :
    ChangesOnly (pixelParts ++ [.reg vf, .drawFlag, .pc, .stepResult]) s (s.drawn x y n) := by
  intro p hp
  cases p with
  | reg r => exact s.drawn_getV_other x y n (by rintro rfl; simp at hp)
  | pixel row col | drawFlag | pc | stepResult => simp at hp
  | _ => rfl

/-- Settles O12, whichever registers hold the coordinates: the draw reads them before it writes VF. -/
theorem drwTurnsCoveredPixelsOver : Obligations.DrwTurnsCoveredPixelsOver := by
  intro x y n s hn h
  exact ⟨_, exec_drw_inRange x y n s h, fun _ _ => ⟨State.drawn_pixel_covered hn, State.drawn_pixel_not_covered hn⟩,
    (s.drawn_vf_eq_one x y hn).2, (s.drawn_vf_eq_zero x y hn).2, rfl, rfl, rfl, s.drawn_changesOnly x y n⟩

/-! ### The same draw twice (R67) -/

/-- A draw moves its own sprite nowhere when neither coordinate register is the VF it writes. -/
theorem covers_drawn {s : State} {x y : Reg} (hx : x ≠ vf) (hy : y ≠ vf) (n : Nat) (row : Fin 32) (col : Fin 64) :
    Covers (s.drawn x y n) x y n row col ↔ Covers s x y n row col := by
  unfold Covers
  rw [s.drawn_getV_other x y n hx, s.drawn_getV_other x y n hy]
  rfl

/-- Settles O13: both draws turn over the same pixels, so a covered pixel is on before the second exactly when it was off before
the first. -/
theorem repeatedDrawRestoresTheScreen : Obligations.RepeatedDrawRestoresTheScreen := by
  intro x y n s hx hy hn h
  have hcov := covers_drawn (s := s) hx hy n
  refine ⟨_, _, exec_drw_inRange x y n s h, exec_drw_inRange x y n (s.drawn x y n) h, fun row col => ?pixels, ?flag⟩
  case pixels =>
    by_cases hc : Covers s x y n row col
    · rw [State.drawn_pixel_covered hn ((hcov row col).2 hc), State.drawn_pixel_covered hn hc, Bool.not_not]
    · rw [State.drawn_pixel_not_covered hn (mt (hcov row col).1 hc), State.drawn_pixel_not_covered hn hc]
  case flag =>
    rw [State.drawn_vf_eq_one _ x y hn]
    refine exists_congr fun row => exists_congr fun col => ?_
    rw [hcov row col]
    refine and_congr_right fun hc => ?_
    rw [State.drawn_pixel_covered hn hc, Bool.not_eq_true']

/-- The block after reset with every pixel on and I at the font's glyph 0, whose first byte is 0xF0. -/
def allLit : State := (State.reset.setI 0x050).setFb (Vector.replicate 32 (Vector.replicate 64 true))

theorem allLit_pixel (row : Fin 32) (col : Fin 64) : allLit.pixel row col = true := by
  simp [allLit, Framebuffer.get]

theorem allLit_covers_origin : Covers allLit 0 1 1 0 0 :=
  ⟨0, 0, by decide, by decide, by decide, by decide⟩

/-- Refutes O14: from `allLit` the first D011 toggles the pixel at the origin, but no pixel was off before it, so the second does
not set VF (R66; log 13). -/
theorem not_secondDrawCollidesIffFirstToggled : ¬ Obligations.SecondDrawCollidesIffFirstToggled := by
  intro hR67
  have hx : (0 : Reg) ≠ vf := by decide
  have hy : (1 : Reg) ≠ vf := by decide
  have hin : 1 = 0 ∨ allLit.indexAddr + 1 ≤ 0x1000 := by decide
  obtain ⟨t, u, ht, hu, -, hvf⟩ := repeatedDrawRestoresTheScreen 0 1 1 allLit hx hy (by decide) hin
  have hset : u.getV vf = 1 := (hR67 0 1 1 allLit t u hx hy (by decide) hin ht hu).2 ⟨0, 0, allLit_covers_origin⟩
  obtain ⟨row, col, -, hoff⟩ := hvf.1 hset
  exact absurd ((allLit_pixel row col).symm.trans hoff) (by decide)

end Sys2Proof.Machine
end

section
/-! PROOFS. Control transfer (42_control_flow.md): the words of the jumps and skips, the fetch after a jump, the state each of the
seven instructions completes in, and a call with its return. -/

namespace Sys2Proof.Machine

/-! ### The words -/

/-- The encoder's word is the word in both directions, since the decoder inverts the encoder. -/
theorem encodedAs_of_encode {i : Instr} {w : Word} (hwf : i.wellFormed = true) (h : encode i = w) : EncodedAs i w :=
  ⟨h, h ▸ decodeOfEncodeIsTheInstruction i hwf⟩

theorem placeX_eq_shiftLeft (x : Reg) : placeX x = BitVec.ofNat 16 x.val <<< 8 := by
  rw [placeX, ← BitVec.ofNat_toNat, BitVec.toNat_ofFin]

theorem placeY_eq_shiftLeft (y : Reg) : placeY y = BitVec.ofNat 16 y.val <<< 4 := by
  rw [placeY, ← BitVec.ofNat_toNat, BitVec.toNat_ofFin]

/-- The word of an instruction with a register `x` and an immediate `nn`. -/
theorem encodedAs_of_row_x_nn {i : Instr} {b : Word} {x : Reg} {nn : Byte} (hwf : i.wellFormed = true)
    (h : encode i = b ||| (placeX x ||| placeNN nn)) :
    EncodedAs i (b ||| BitVec.ofNat 16 x.val <<< 8 ||| nn.setWidth 16) :=
  encodedAs_of_encode hwf (by rw [h, placeX_eq_shiftLeft, ← BitVec.or_assoc, placeNN])

/-- The word of an instruction with two registers. -/
theorem encodedAs_of_row_x_y {i : Instr} {b : Word} {x y : Reg} (hwf : i.wellFormed = true)
    (h : encode i = b ||| (placeX x ||| placeY y)) :
    EncodedAs i (b ||| BitVec.ofNat 16 x.val <<< 8 ||| BitVec.ofNat 16 y.val <<< 4) :=
  encodedAs_of_encode hwf (by rw [h, placeX_eq_shiftLeft, placeY_eq_shiftLeft, ← BitVec.or_assoc])

theorem decode_eq_ret_iff (w : Word) : decode w = .ok .ret ↔ w = 0x00EE#16 := by
  constructor
  · intro h
    obtain ⟨henc, -⟩ := encodeOfDecodeIsTheWord w .ret h
    exact henc.symm
  · rintro rfl
    exact decodeOfEncodeIsTheInstruction .ret rfl

/-! ### Where control goes -/

/-- The fetch fails exactly when one of its two bytes lies outside memory (20_memory.md R34). -/
theorem fetch_fails_iff (s : State) : (∃ e, fetch s = .error e) ↔ 0xFFE < s.pc.toNat := by
  constructor
  · rintro ⟨e, he⟩
    by_contra hpc
    rw [fetch_ok s (by omega)] at he
    cases he
  · intro hpc
    exact ⟨_, fetch_out s hpc⟩

theorem zextAddr_toNat (nnn : Addr) : (zextAddr nnn).toNat = nnn.toNat := by
  rw [zextAddr, BitVec.toNat_setWidth_of_le (by decide)]

/-- Bnnn's sum is below 2^16, so nothing is cut off (decision D10). -/
theorem zextAddr_add_zextByte_toNat (nnn : Addr) (b : Byte) :
    (zextAddr nnn + zextByte b).toNat = nnn.toNat + b.toNat := by
  have haddr := nnn.isLt
  have hbyte := b.isLt
  rw [zextByte, BitVec.toNat_add, zextAddr_toNat, BitVec.toNat_setWidth_of_le (by decide)]
  exact Nat.mod_eq_of_lt (by omega)

/-- The completed step that has moved pc to `w` and done nothing else. -/
def State.jumpedTo (s : State) (w : Word) : State := (s.setPc w).setStepResult ⟨.ok, false, none⟩

@[simp] theorem State.jumpedTo_pc (s : State) (w : Word) : (s.jumpedTo w).pc = w := rfl

theorem State.jumpedTo_changesOnly (s : State) (w : Word) : ChangesOnly [.pc, .stepResult] s (s.jumpedTo w) := by
  intro p hp
  cases p with
  | pc | stepResult => simp at hp
  | _ => rfl

theorem State.jumpedTo_fetch_fails_iff (s : State) (w : Word) : (∃ e, fetch (s.jumpedTo w) = .error e) ↔ 0xFFE < w.toNat :=
  fetch_fails_iff _

/-! ### Jumps -/

theorem exec_jp (nnn : Addr) (s : State) : exec (.jp nnn) s = .next (s.jumpedTo (zextAddr nnn)) := rfl

theorem exec_jpV0 (nnn : Addr) (s : State) :
    exec (.jpV0 nnn) s = .next (s.jumpedTo (zextAddr nnn + zextByte (s.getV 0))) := rfl

/-- Settles O17: of the 12-bit addresses only 0xFFF is above 0xFFE. -/
theorem jpSetsPc : Obligations.JpSetsPc := by
  intro nnn s
  have hlast : 0xFFE < (zextAddr nnn).toNat ↔ nnn = 0xFFF#12 := by
    rw [zextAddr_toNat]
    bv_omega
  exact ⟨encodedAs_of_encode rfl rfl, _, exec_jp nnn s, zextAddr_toNat nnn,
    (s.jumpedTo_fetch_fails_iff _).trans hlast, s.jumpedTo_changesOnly _⟩

/-- Settles O22: pc is the unmasked sum, which is what the next fetch compares. -/
theorem jpV0SetsPcToTheSum : Obligations.JpV0SetsPcToTheSum := by
  intro nnn s
  refine ⟨_, exec_jpV0 nnn s, zextAddr_add_zextByte_toNat nnn (s.getV 0), ?_, s.jumpedTo_changesOnly _⟩
  rw [State.jumpedTo_fetch_fails_iff, zextAddr_add_zextByte_toNat]

/-! ### Skips -/

/-- A skip completes with pc moved past one instruction or two (R68). -/
theorem complete_skipIf (s : State) (c : Bool) :
    complete (s.advance.skipIf c) = .next (s.jumpedTo (if c then s.pc + 4 else s.pc + 2)) := by
  have hpc : s.pc + 2 + 2 = s.pc + 4 := BitVec.add_assoc s.pc 2 2
  rw [State.skipIf_eq, State.advance_pc, hpc]
  rfl

/-- An instruction that skips on equality of two bytes. -/
theorem skip_of_eq {i : Instr} {s : State} {a b : Byte} (h : exec i s = complete (s.advance.skipIf (a == b))) :
    ∃ t, exec i s = .next t ∧ t.pc = (if a = b then s.pc + 4 else s.pc + 2) ∧ ChangesOnly [.pc, .stepResult] s t :=
  ⟨_, h.trans (complete_skipIf s _), by simp, s.jumpedTo_changesOnly _⟩

/-- An instruction that skips on a difference of two bytes. -/
theorem skip_of_ne {i : Instr} {s : State} {a b : Byte} (h : exec i s = complete (s.advance.skipIf (a != b))) :
    ∃ t, exec i s = .next t ∧ t.pc = (if a = b then s.pc + 2 else s.pc + 4) ∧ ChangesOnly [.pc, .stepResult] s t :=
  ⟨_, h.trans (complete_skipIf s _), by simp, s.jumpedTo_changesOnly _⟩

/-- Settles O20: both compare Vx with nn. -/
theorem skipsOnImmediate : Obligations.SkipsOnImmediate := by
  intro x nn s
  exact ⟨encodedAs_of_row_x_nn rfl rfl, encodedAs_of_row_x_nn rfl rfl, skip_of_eq rfl, skip_of_ne rfl⟩

/-- Settles O21: both compare Vx with Vy; the other low nibbles are families 5 and 9 of R57's list. -/
theorem skipsOnRegisters : Obligations.SkipsOnRegisters := by
  intro x y s
  refine ⟨encodedAs_of_row_x_y rfl rfl, encodedAs_of_row_x_y rfl rfl, fun w hop hn => ?_, skip_of_eq rfl, skip_of_ne rfl⟩
  obtain h5 | h9 := hop
  · exact (unknownWordsByFamily w).2 (by simp [h5, hn])
  · exact (unknownWordsByFamily w).2 (by simp [h9, hn])

/-! ### The call stack -/

/-- The state 2nnn completes in: the advanced pc on top of the stack, pc at nnn. -/
def State.calledTo (s : State) (nnn : Addr) : State :=
  ((s.setStackEntry s.sp (s.pc + 2)).setSp (s.sp + 1)).jumpedTo (zextAddr nnn)

/-- The state 00EE completes in when the top entry is `w`. -/
def State.returnedTo (s : State) (w : Word) : State := (s.setSp (s.sp - 1)).jumpedTo w

theorem exec_call_full (nnn : Addr) {s : State} (h : s.cfg.stackDepth ≤ s.sp) :
    exec (.call nnn) s = raise (.stackOverflow s.pc) s :=
  if_pos h

theorem exec_call_room (nnn : Addr) {s : State} (h : s.sp < s.cfg.stackDepth) (hl : s.sp < s.stack.length) :
    exec (.call nnn) s = .next (s.calledTo nnn) :=
  (if_neg (Nat.not_le.2 h)).trans (if_pos hl)

theorem exec_ret_empty {s : State} (h : s.sp = 0) : exec .ret s = raise (.stackUnderflow s.pc) s :=
  if_pos h

theorem exec_ret_top {s : State} {w : Word} (h : 0 < s.sp) (hw : s.stack[s.sp - 1]? = some w) :
    exec .ret s = .next (s.returnedTo w) := by
  change execRet s = _
  simp only [execRet, popReturn, State.advance_sp, State.advance_stack, hw, if_neg (Nat.ne_of_gt h)]
  rfl

theorem State.calledTo_top (s : State) (nnn : Addr) (hl : s.sp < s.stack.length) :
    (s.calledTo nnn).stack[s.sp]? = some (s.pc + 2) :=
  List.getElem?_set_self hl

theorem State.calledTo_changesOnly (s : State) (nnn : Addr) :
    ChangesOnly [.stackEntry s.sp, .sp, .pc, .stepResult] s (s.calledTo nnn) := by
  intro p hp
  cases p with
  | stackEntry k => exact List.getElem?_set_ne (by rintro rfl; simp at hp)
  | sp | pc | stepResult => simp at hp
  | _ => rfl

theorem State.returnedTo_changesOnly (s : State) (w : Word) : ChangesOnly [.sp, .pc, .stepResult] s (s.returnedTo w) := by
  intro p hp
  cases p with
  | sp | pc | stepResult => simp at hp
  | _ => rfl

/-- Settles O16: the pop reads the entry at SP - 1, and the fetch after it reads at that entry. -/
theorem retPopsTheCallStack : Obligations.RetPopsTheCallStack := by
  refine ⟨decode_eq_ret_iff, fun s => ⟨fun h => ?_, fun w h hw => ?_⟩⟩
  · rw [exec_ret_empty h]
    exact raise_raisedOnly _ s
  · exact ⟨_, exec_ret_top h hw, rfl, rfl, fetch_fails_iff _, s.returnedTo_changesOnly w⟩

/-- Settles O18: a full stack raises, one with room takes the advanced pc at SP. -/
theorem callPushesTheReturnAddress : Obligations.CallPushesTheReturnAddress := by
  intro nnn s
  refine ⟨encodedAs_of_encode rfl rfl, fun h => ?_, fun h hl => ?_⟩
  · rw [exec_call_full nnn h.ge]
    exact raise_raisedOnly _ s
  · exact ⟨_, exec_call_room nnn h hl, s.calledTo_top nnn hl, rfl, zextAddr_toNat nnn, s.calledTo_changesOnly nnn⟩

/-- Settles O19: the call's entry is the top one the return pops, and SP is counted up and down again. -/
theorem callThenReturnComesBack : Obligations.CallThenReturnComesBack := by
  intro nnn s hi hroom
  obtain ⟨-, -, hlen, -, -⟩ := hi
  have hl : s.sp < s.stack.length := hlen ▸ hroom
  have hret : exec .ret (s.calledTo nnn) = .next ((s.calledTo nnn).returnedTo (s.pc + 2)) :=
    exec_ret_top (Nat.succ_pos s.sp) (s.calledTo_top nnn hl)
  have hframe : ChangesOnly [.stackEntry s.sp, .sp, .pc, .stepResult] s ((s.calledTo nnn).returnedTo (s.pc + 2)) :=
    (s.calledTo_changesOnly nnn).trans (((s.calledTo nnn).returnedTo_changesOnly _).mono (by simp))
  refine ⟨_, _, exec_call_room nnn hroom hl, hret, rfl, fun p hp => ?_⟩
  by_cases hsp : p = .sp
  · subst hsp
    rfl
  · exact hframe p (by simp_all)

end Sys2Proof.Machine
end

section
/-! PROOFS. Register loads and the ALU (43_alu.md R77 to R90): the state each completes in, and its result and flag as numbers.
Every one of them ends in one register write, after at most one other update of the state it began in. -/

namespace Sys2Proof.Machine

/-! ### Bytes as numbers -/

theorem byte_sub_toNat (a b : Byte) : (a - b).toNat = (a.toNat + 256 - b.toNat) % 256 := by
  bv_omega

theorem byte_shiftRight_one_toNat (b : Byte) : (b >>> 1).toNat = b.toNat / 2 := by
  rw [BitVec.toNat_ushiftRight, Nat.shiftRight_one]

theorem byte_shiftLeft_one_toNat (b : Byte) : (b <<< 1).toNat = b.toNat * 2 % 256 := by
  rw [BitVec.toNat_shiftLeft, Nat.shiftLeft_eq]

theorem flagByte_toNat (f : Bool) : (flagByte f).toNat = f.toNat := by
  cases f <;> rfl

theorem flagByte_decide (p : Prop) [Decidable p] : flagByte (decide p) = if p then 1 else 0 := by
  simp [flagByte]

theorem flagByte_shrOut_toNat (b : Byte) : (flagByte (shrOut b)).toNat = b.toNat % 2 := by
  rw [flagByte_toNat, shrOut, BitVec.getLsbD, Nat.toNat_testBit, Nat.pow_zero, Nat.div_one]

/-- Bit 7 is the top bit of a byte, so the quotient by 128 is the bit itself. -/
theorem flagByte_shlOut_toNat (b : Byte) : (flagByte (shlOut b)).toNat = b.toNat / 128 := by
  have hbyte := b.isLt
  rw [flagByte_toNat, shlOut, BitVec.getLsbD, Nat.toNat_testBit]
  omega

/-! ### The completed step that has written Vx -/

/-- The completed step that has given Vx the byte `b`, moved pc past the instruction and done nothing else. -/
def State.assigned (s : State) (x : Reg) (b : Byte) : State := (s.advance.setV x b).setStepResult ⟨.ok, false, none⟩

@[simp] theorem State.assigned_pc (s : State) (x : Reg) (b : Byte) : (s.assigned x b).pc = s.pc + 2 := rfl

@[simp] theorem State.getV_assigned_same (s : State) (x : Reg) (b : Byte) : (s.assigned x b).getV x = b :=
  State.getV_setV_same _ x b

theorem State.getV_assigned_other (s : State) (x : Reg) (b : Byte) {q : Reg} (h : q ≠ x) :
    (s.assigned x b).getV q = s.getV q :=
  State.getV_setV_other s.advance x q b h

theorem State.assigned_changesOnly (s : State) (x : Reg) (b : Byte) :
    ChangesOnly [.reg x, .pc, .stepResult] s (s.assigned x b) := by
  intro p hp
  cases p with
  | reg r => exact s.getV_assigned_other x b (by rintro rfl; simp at hp)
  | pc | stepResult => simp at hp
  | _ => rfl

theorem State.setV_changesOnly (s : State) (x : Reg) (b : Byte) : ChangesOnly [.reg x] s (s.setV x b) := by
  intro p hp
  cases p with
  | reg r => exact s.getV_setV_other x r b (by rintro rfl; simp at hp)
  | _ => rfl

theorem State.setDraws_changesOnly (s : State) (n : Nat) : ChangesOnly [.draws] s (s.setDraws n) := by
  intro p hp
  cases p with
  | draws => simp at hp
  | _ => rfl

/-- The frame of a register write after another update. -/
theorem ChangesOnly.assigned {q : Part} {s u : State} (h : ChangesOnly [q] s u) (x : Reg) (b : Byte) :
    ChangesOnly [.reg x, q, .pc, .stepResult] s (u.assigned x b) :=
  (h.mono (by simp)).trans ((u.assigned_changesOnly x b).mono (by simp))

/-! ### The two orders of Vx and VF (R78) -/

/-- The completed step that has written VF first and Vx last. -/
def State.flaggedThenAssigned (s : State) (x : Reg) (d : Byte) (f : Bool) : State := (s.setFlag f).assigned x d

/-- The completed step that has written Vx first and VF last. -/
def State.assignedThenFlagged (s : State) (x : Reg) (d : Byte) (f : Bool) : State := (s.setV x d).assigned vf (flagByte f)

theorem State.getV_flaggedThenAssigned_vf (s : State) {x : Reg} (d : Byte) (f : Bool) (h : x ≠ vf) :
    (s.flaggedThenAssigned x d f).getV vf = flagByte f := by
  rw [State.flaggedThenAssigned, State.getV_assigned_other _ x d h.symm, State.setFlag, State.getV_setV_same]

theorem State.flaggedThenAssigned_changesOnly (s : State) (x : Reg) (d : Byte) (f : Bool) :
    ChangesOnly [.reg x, .reg vf, .pc, .stepResult] s (s.flaggedThenAssigned x d f) :=
  (s.setV_changesOnly vf (flagByte f)).assigned x d

theorem State.getV_assignedThenFlagged_vf (s : State) (x : Reg) (d : Byte) (f : Bool) :
    (s.assignedThenFlagged x d f).getV vf = flagByte f :=
  State.getV_assigned_same _ vf _

theorem State.getV_assignedThenFlagged_same (s : State) {x : Reg} (d : Byte) (f : Bool) (h : x ≠ vf) :
    (s.assignedThenFlagged x d f).getV x = d := by
  rw [State.assignedThenFlagged, State.getV_assigned_other _ vf _ h, State.getV_setV_same]

theorem State.assignedThenFlagged_changesOnly (s : State) (x : Reg) (d : Byte) (f : Bool) :
    ChangesOnly [.reg x, .reg vf, .pc, .stepResult] s (s.assignedThenFlagged x d f) :=
  ((s.setV_changesOnly x d).assigned vf (flagByte f)).mono (by simp)

/-! ### Loads, the addition of an immediate, and the random byte -/

theorem exec_ldImm (x : Reg) (nn : Byte) (s : State) : exec (.ldImm x nn) s = .next (s.assigned x nn) := rfl

theorem exec_addImm (x : Reg) (nn : Byte) (s : State) :
    exec (.addImm x nn) s = .next (s.assigned x (s.getV x + nn)) := rfl

theorem exec_ldReg (x y : Reg) (s : State) : exec (.ldReg x y) s = .next (s.assigned x (s.getV y)) := rfl

theorem exec_rnd (x : Reg) (nn : Byte) (s : State) :
    exec (.rnd x nn) s = .next ((s.setDraws (s.draws + 1)).assigned x (Config.rand s.draws &&& nn)) := rfl

/-- Settles O23: the completed step assigns nn. -/
theorem ldImmLoadsTheImmediate : Obligations.LdImmLoadsTheImmediate := by
  intro x nn s
  exact ⟨encodedAs_of_row_x_nn rfl rfl, _, exec_ldImm x nn s, s.getV_assigned_same x nn, rfl, s.assigned_changesOnly x nn⟩

/-- Settles O24: the completed step assigns the 8-bit sum, whose number is taken modulo 256. -/
theorem addImmWrapsWithoutFlag : Obligations.AddImmWrapsWithoutFlag := by
  intro x nn s
  refine ⟨encodedAs_of_row_x_nn rfl rfl, _, exec_addImm x nn s, ?_, rfl, s.assigned_changesOnly x _⟩
  rw [State.getV_assigned_same, BitVec.toNat_add]

/-- Settles O25: the completed step assigns Vy; the row's low nibble is 0. -/
theorem ldRegCopiesTheRegister : Obligations.LdRegCopiesTheRegister := by
  intro x y s
  refine ⟨?_, _, exec_ldReg x y s, s.getV_assigned_same x _, rfl, s.assigned_changesOnly x _⟩
  rw [BitVec.or_zero]
  exact encodedAs_of_row_x_y rfl rfl

/-- Settles O30: the draw is counted before Vx is written, and nothing is asked of the drawn byte. -/
theorem rndMasksAFreeByte : Obligations.RndMasksAFreeByte := by
  intro x nn s
  exact ⟨_, exec_rnd x nn s, State.getV_assigned_same _ x _, rfl, rfl, (s.setDraws_changesOnly _).assigned x _⟩

/-! ### The logical operations -/

theorem exec_orReg (x y : Reg) (s : State) : exec (.orReg x y) s = .next (s.assigned x (s.getV x ||| s.getV y)) := rfl

theorem exec_andReg (x y : Reg) (s : State) : exec (.andReg x y) s = .next (s.assigned x (s.getV x &&& s.getV y)) := rfl

theorem exec_xorReg (x y : Reg) (s : State) : exec (.xorReg x y) s = .next (s.assigned x (s.getV x ^^^ s.getV y)) := rfl

/-- Settles O26: each assigns one bitwise operation, so VF is kept like any other register (decision D19). -/
theorem logicalOperationsKeepVf : Obligations.LogicalOperationsKeepVf := by
  intro x y s
  refine ⟨⟨_, exec_orReg x y s, fun k => ?_, rfl, s.assigned_changesOnly x _⟩,
    ⟨_, exec_andReg x y s, fun k => ?_, rfl, s.assigned_changesOnly x _⟩,
    ⟨_, exec_xorReg x y s, fun k => ?_, rfl, s.assigned_changesOnly x _⟩⟩
  · rw [State.getV_assigned_same, BitVec.getLsbD_or]
  · rw [State.getV_assigned_same, BitVec.getLsbD_and]
  · rw [State.getV_assigned_same, BitVec.getLsbD_xor]

/-! ### The addition with carry -/

theorem exec_addReg (x y : Reg) (s : State) : exec (.addReg x y) s =
    .next (s.flaggedThenAssigned x (s.getV x + s.getV y) (addCarry (s.getV x) (s.getV y))) := rfl

/-- Settles O27: Vx is written last, so the sum is in Vx even when x = F (decision D20). -/
theorem addRegSetsCarry : Obligations.AddRegSetsCarry := by
  intro x y s
  refine ⟨_, exec_addReg x y s, ?sum, fun hx => ?carry, rfl, s.flaggedThenAssigned_changesOnly x _ _⟩
  case sum => rw [State.flaggedThenAssigned, State.getV_assigned_same, BitVec.toNat_add]
  case carry => rw [s.getV_flaggedThenAssigned_vf _ _ hx, addCarry, flagByte_decide]

/-! ### The subtractions (decision D17) -/

/-- The state a subtraction of `b` from `a` into Vx completes in. -/
def State.subtracted (s : State) (x : Reg) (a b : Byte) : State :=
  (s.advance.subWrite x (a - b) (notBorrow a b)).setStepResult ⟨.ok, false, none⟩

theorem exec_subReg (x y : Reg) (s : State) :
    exec (.subReg x y) s = .next (s.subtracted x (s.getV x) (s.getV y)) := rfl

theorem exec_subn (x y : Reg) (s : State) :
    exec (.subn x y) s = .next (s.subtracted x (s.getV y) (s.getV x)) := rfl

theorem State.subtracted_pc (s : State) (x : Reg) (a b : Byte) : (s.subtracted x a b).pc = s.pc + 2 := by
  simp [State.subtracted]

theorem State.subtracted_of_noFlag {s : State} (h : s.cfg.subFlagPolicy = .noFlag) (x : Reg) (a b : Byte) :
    s.subtracted x a b = s.assigned x (a - b) := by
  rw [State.subtracted, State.subWrite, State.advance_cfg, h]
  rfl

theorem State.subtracted_of_notBorrow {s : State} (h : s.cfg.subFlagPolicy = .notBorrow) (x : Reg) (a b : Byte) :
    s.subtracted x a b = s.assignedThenFlagged x (a - b) (notBorrow a b) := by
  rw [State.subtracted, State.subWrite, State.advance_cfg, h]
  rfl

theorem flagByte_notBorrow (a b : Byte) : flagByte (notBorrow a b) = if b.toNat ≤ a.toNat then 1 else 0 :=
  flagByte_decide _

/-- Settles O28: the two subtractions differ in which operand is taken from which, and the policy decides whether VF is written
after the difference. -/
theorem subtractionsFollowTheFlagPolicy : Obligations.SubtractionsFollowTheFlagPolicy := by
  intro x y s
  refine ⟨_, _, exec_subReg x y s, exec_subn x y s, s.subtracted_pc x _ _, s.subtracted_pc x _ _,
    fun hp => ?noFlag, fun hp => ?notBorrow⟩
  case noFlag =>
    have hdiff (a b : Byte) : ((s.subtracted x a b).getV x).toNat = (a.toNat + 256 - b.toNat) % 256 := by
      rw [State.subtracted_of_noFlag hp, State.getV_assigned_same, byte_sub_toNat]
    have hframe (a b : Byte) : ChangesOnly [.reg x, .pc, .stepResult] s (s.subtracted x a b) :=
      State.subtracted_of_noFlag hp x a b ▸ s.assigned_changesOnly x (a - b)
    exact ⟨hdiff _ _, hdiff _ _, hframe _ _, hframe _ _⟩
  case notBorrow =>
    have hdiff (a b : Byte) (hx : x ≠ vf) : ((s.subtracted x a b).getV x).toNat = (a.toNat + 256 - b.toNat) % 256 := by
      rw [State.subtracted_of_notBorrow hp, s.getV_assignedThenFlagged_same _ _ hx, byte_sub_toNat]
    have hflag (a b : Byte) : (s.subtracted x a b).getV vf = if b.toNat ≤ a.toNat then 1 else 0 := by
      rw [State.subtracted_of_notBorrow hp, State.getV_assignedThenFlagged_vf, flagByte_notBorrow]
    have hframe (a b : Byte) : ChangesOnly [.reg x, .reg vf, .pc, .stepResult] s (s.subtracted x a b) :=
      State.subtracted_of_notBorrow hp x a b ▸ s.assignedThenFlagged_changesOnly x _ _
    exact ⟨fun hx => ⟨hdiff _ _ hx, hdiff _ _ hx⟩, hflag _ _, hflag _ _, hframe _ _, hframe _ _⟩

/-! ### The shifts (decision D18) -/

/-- The state a shift completes in, for the shift `g` and the bit `o` it shifts out. -/
def State.shifted (s : State) (x y : Reg) (g : Byte → Byte) (o : Byte → Bool) : State :=
  (s.advance.shiftWrite x y g o).setStepResult ⟨.ok, false, none⟩

theorem exec_shr (x y : Reg) (s : State) : exec (.shr x y) s = .next (s.shifted x y (fun b => b >>> 1) shrOut) := rfl

theorem exec_shl (x y : Reg) (s : State) : exec (.shl x y) s = .next (s.shifted x y (fun b => b <<< 1) shlOut) := rfl

theorem State.shifted_pc (s : State) (x y : Reg) (g : Byte → Byte) (o : Byte → Bool) :
    (s.shifted x y g o).pc = s.pc + 2 := by
  simp [State.shifted]

theorem State.shifted_of_inPlaceNoFlag {s : State} (h : s.cfg.shiftPolicy = .inPlaceNoFlag) (x y : Reg) (g : Byte → Byte)
    (o : Byte → Bool) : s.shifted x y g o = s.assigned x (g (s.getV x)) := by
  rw [State.shifted, State.shiftWrite, State.advance_cfg, h]
  rfl

/-- Under the two policies that write the flag, the state depends on the policy through its source register `z` alone. -/
theorem State.shifted_of_source {s : State} {x y z : Reg}
    (h : (s.cfg.shiftPolicy = .inPlaceFlag ∧ z = x) ∨ (s.cfg.shiftPolicy = .fromVyFlag ∧ z = y)) (g : Byte → Byte)
    (o : Byte → Bool) : s.shifted x y g o = s.assignedThenFlagged x (g (s.getV z)) (o (s.getV z)) := by
  obtain ⟨hp, rfl⟩ | ⟨hp, rfl⟩ := h <;> rw [State.shifted, State.shiftWrite, State.advance_cfg, hp] <;> rfl

/-- Settles O29: without a flag the shift is an assignment; with one, both shifts assign from the policy's source register and
write the bit shifted out last. -/
theorem shiftsFollowTheShiftPolicy : Obligations.ShiftsFollowTheShiftPolicy := by
  intro x y s
  refine ⟨_, _, exec_shr x y s, exec_shl x y s, s.shifted_pc x y _ _, s.shifted_pc x y _ _,
    fun hp => ?noFlag, fun z hz => ?flag⟩
  case noFlag =>
    simp only [State.shifted_of_inPlaceNoFlag hp, State.getV_assigned_same]
    exact ⟨byte_shiftRight_one_toNat _, byte_shiftLeft_one_toNat _, s.assigned_changesOnly x _, s.assigned_changesOnly x _⟩
  case flag =>
    simp only [State.shifted_of_source hz, State.getV_assignedThenFlagged_vf]
    refine ⟨fun hx => ?_, flagByte_shrOut_toNat _, flagByte_shlOut_toNat _, s.assignedThenFlagged_changesOnly x _ _,
      s.assignedThenFlagged_changesOnly x _ _⟩
    simp only [s.getV_assignedThenFlagged_same _ _ hx]
    exact ⟨byte_shiftRight_one_toNat _, byte_shiftLeft_one_toNat _⟩

end Sys2Proof.Machine
end

section
/-! PROOFS. The index register and the memory it points at (44_index_memory.md R91 to R97): every one of the six instructions
completes after one update of the advanced state, whose frame the completion extends by pc and the step's result. -/

namespace Sys2Proof.Machine

/-! ### Frames -/

theorem State.advance_changesOnly (s : State) : ChangesOnly [.pc] s s.advance := by
  intro p hp
  cases p with
  | pc => simp at hp
  | _ => rfl

theorem State.setStepResult_changesOnly (s : State) (r : StepResult) : ChangesOnly [.stepResult] s (s.setStepResult r) := by
  intro p hp
  cases p with
  | stepResult => simp at hp
  | _ => rfl

theorem State.setI_changesOnly (s : State) (w : Word) : ChangesOnly [.iReg] s (s.setI w) := by
  intro p hp
  cases p with
  | iReg => simp at hp
  | _ => rfl

/-- Loading a block for V0 to Vx changes those registers alone. -/
theorem State.setRegsFrom_changesOnly (s : State) (x : Reg) (bs : List Byte) (hl : bs.length = x.val + 1) :
    ChangesOnly (regPartsUpTo x) s (s.setRegsFrom 0 bs) := by
  intro p hp
  cases p with
  | reg r => exact s.getV_setRegsFrom_above x bs hl (mt (reg_mem_regPartsUpTo r x).2 hp)
  | _ => simp [Part.same]

/-- The frame of an instruction that completes after an update of the advanced state. -/
theorem ChangesOnly.completed {ps : List Part} {s u : State} (h : ChangesOnly ps s.advance u) (r : StepResult) :
    ChangesOnly (ps ++ [.pc, .stepResult]) s (u.setStepResult r) :=
  ((s.advance_changesOnly.mono (by simp)).trans (h.mono (by simp +contextual))).trans
    ((u.setStepResult_changesOnly r).mono (by simp))

/-! ### The index register (R92 to R94) -/

/-- An instruction that sets I to `w` and does nothing else. -/
theorem index_of_setI {i : Instr} {s : State} {w : Word} {n : Nat} (h : exec i s = complete (s.advance.setI w))
    (hw : w.toNat = n) :
    ∃ t, exec i s = .next t ∧ t.iReg.toNat = n ∧ t.pc = s.pc + 2 ∧ ChangesOnly [.iReg, .pc, .stepResult] s t :=
  ⟨_, h, hw, rfl, (s.advance.setI_changesOnly w).completed _⟩

/-- Fx1E's sum wraps at 2^16 (decision D11). -/
theorem add_zextByte_toNat (w : Word) (b : Byte) : (w + zextByte b).toNat = (w.toNat + b.toNat) % 0x10000 := by
  rw [zextByte, BitVec.toNat_add, BitVec.toNat_setWidth_of_le (by decide)]

/-- A font below 0x200 has its 16 glyphs at addresses of 16 bits, so nothing is cut off (log 19). -/
theorem glyphAddr_toNat {c : Config} (hc : c.WellFormed) (b : Byte) :
    (glyphAddr c (lowNibble b)).toNat = c.fontBase + 5 * (b.toNat % 16) := by
  obtain ⟨-, hfont⟩ := hc
  rw [glyphAddr, glyphBytes, lowNibble, BitVec.toNat_ofNat]
  exact Nat.mod_eq_of_lt (by omega)

/-- Settles O31: I takes the address, zero-extended. -/
theorem ldISetsTheIndex : Obligations.LdISetsTheIndex := by
  intro nnn s
  exact ⟨encodedAs_of_encode rfl rfl, index_of_setI rfl (zextAddr_toNat nnn)⟩

/-- Settles O32: I takes the 16-bit sum. -/
theorem addIWrapsWithoutFlag : Obligations.AddIWrapsWithoutFlag := by
  intro x s
  exact index_of_setI rfl (add_zextByte_toNat s.iReg (s.getV x))

/-- Settles O33: I takes the glyph's address, which admissible parameters keep below 2^16. -/
theorem ldFPointsAtTheGlyph : Obligations.LdFPointsAtTheGlyph := by
  intro x s hc
  exact index_of_setI rfl (glyphAddr_toNat hc (s.getV x))

/-! ### Fx33 (R95) -/

/-- The word of an instruction with a register `x` alone. -/
theorem encodedAs_of_row_x {i : Instr} {b : Word} {x : Reg} (hwf : i.wellFormed = true) (h : encode i = b ||| placeX x) :
    EncodedAs i (b ||| BitVec.ofNat 16 x.val <<< 8) :=
  encodedAs_of_encode hwf (by rw [h, placeX_eq_shiftLeft])

/-- Read after a block write: the block's byte `k` stands `k` bytes from its start. -/
theorem State.readByte_writeBytes_at (s : State) (hwf : Memory.wf s.cfg s.mem) {a k : Nat} {bs : List Byte}
    (hr : a + bs.length ≤ memSize) (hk : k < bs.length) : (s.writeBytes a bs).readByte (a + k) = bs.getD k 0 := by
  rw [State.readByte_writeBytes s hwf a bs hr, if_pos (by omega), Nat.add_sub_cancel_left]

/-- Each decimal digit of a byte fits a byte. -/
theorem bcdDigits_toNat (b : Byte) :
    (bcdDigits b).map BitVec.toNat = [b.toNat / 100, b.toNat / 10 % 10, b.toNat % 10] := by
  have hbyte := b.isLt
  simp only [bcdDigits, List.map_cons, List.map_nil, BitVec.toNat_ofNat, List.cons.injEq, and_true]
  omega

theorem exec_ldB_inRange (x : Reg) (s : State) (h : s.indexAddr + 2 ≤ 0xFFF) :
    exec (.ldB x) s = complete (s.advance.writeBytes s.indexAddr (bcdDigits (s.getV x))) := by
  have hw := writeBlock_ok s.advance s.indexAddr (bcdDigits (s.getV x)) (Or.inr (by rw [bcdDigits_length]; omega))
  change orRaise s (writeBlock s.advance s.indexAddr (bcdDigits (s.getV x))) complete = _
  rw [hw, orRaise]

/-- Settles O34: beyond memory the block write fails before any byte is touched; in range its three bytes read back as the
digits. -/
theorem ldBStoresTheDecimalDigits : Obligations.LdBStoresTheDecimalDigits := by
  intro x s
  refine ⟨encodedAs_of_row_x rfl rfl, fun h => ?beyond, fun hwf h => ?inRange⟩
  case beyond =>
    obtain ⟨-, hraise, -, -⟩ := indexedAccessBeyondMemoryRaises x x 0 s
    rw [firstOutside_eq_max]
    exact hraise (by omega)
  case inRange =>
    have hr : s.indexAddr + (bcdDigits (s.getV x)).length ≤ memSize := by rw [bcdDigits_length, memSize]; omega
    have hread (k : Nat) (hk : k < 3) :
        ((s.advance.writeBytes s.indexAddr (bcdDigits (s.getV x))).readByte (s.indexAddr + k)).toNat =
          [(s.getV x).toNat / 100, (s.getV x).toNat / 10 % 10, (s.getV x).toNat % 10].getD k 0 := by
      rw [State.readByte_writeBytes_at s.advance hwf hr hk, ← bcdDigits_toNat]
      exact (List.getD_map _ 0 BitVec.toNat).symm
    exact ⟨_, exec_ldB_inRange x s h, hread 0 (by decide), hread 1 (by decide), hread 2 (by decide),
      s.advance.writeBytes_pc _ _, (writeBytes_changesOnly s.advance hwf _ _ hr).completed _⟩

/-! ### Fx55 and Fx65 (R96, R97; decision D25) -/

/-- Settles O35: the block write puts `V[r]` at its place `r`, and its frame is the block alone. -/
theorem storeRegsCopiesToMemory : Obligations.StoreRegsCopiesToMemory := by
  intro x s hwf h
  have hr : s.indexAddr + (s.regsUpTo x).length ≤ memSize := by rw [State.regsUpTo_length, memSize]; omega
  have hframe := (writeBytes_changesOnly s.advance hwf s.indexAddr (s.regsUpTo x) hr).completed ⟨.ok, false, none⟩
  rw [State.regsUpTo_length] at hframe
  exact ⟨_, exec_storeRegs_inRange x s h, fun r hx => State.readByte_writeBytes_regsUpTo x r s hwf h hx,
    s.advance.writeBytes_pc _ _, hframe⟩

theorem exec_loadRegs_inRange (x : Reg) (s : State) (h : s.indexAddr + x.val ≤ 0xFFF) :
    exec (.loadRegs x) s = complete (s.advance.setRegsFrom 0 (s.bytesAt s.indexAddr (x.val + 1))) := by
  have hb := readBlock_ok s.advance s.indexAddr (x.val + 1) (Or.inr (by omega))
  change orRaise s (readBlock s.advance s.indexAddr (x.val + 1)) _ = _
  rw [hb]
  rfl

/-- Read after Fx65's load: `V[r]` holds the byte `r` bytes from I. -/
theorem State.getV_setRegsFrom_bytesAt (s u : State) (a : Nat) {x r : Reg} (hr : r ≤ x) :
    (u.setRegsFrom 0 (s.bytesAt a (x.val + 1))).getV r = s.readByte (a + r.val) := by
  have hlt : r.val < x.val + 1 := Nat.lt_succ_of_le hr
  rw [State.getV_setRegsFrom, State.bytesAt_length, if_pos (by omega), Nat.sub_zero, State.bytesAt_getD _ _ _ _ hlt]

/-- Settles O36: the block read is loaded into V0 to Vx of the advanced state. -/
theorem loadRegsCopiesFromMemory : Obligations.LoadRegsCopiesFromMemory := by
  intro x s h
  exact ⟨_, exec_loadRegs_inRange x s h, fun r hx => s.getV_setRegsFrom_bytesAt s.advance s.indexAddr hx,
    s.advance.setRegsFrom_pc _ _, (s.advance.setRegsFrom_changesOnly x _ (s.bytesAt_length _ _)).completed _⟩

end Sys2Proof.Machine
end

section
/-! PROOFS. Key tests, the key wait and the timers (45_keys_timers.md R98 to R104): the key a register names, and the state each of
the six instructions completes in. -/

namespace Sys2Proof.Machine

/-! ### The key tests (R98 to R100; decision D26) -/

theorem keyOf_of_toNat_eq {b : Byte} {k : KeyIdx} (h : b.toNat = k.val) : keyOf b = some k := by
  have hlt : b.toNat < 16 := h ▸ k.isLt
  rw [keyOf, dif_pos hlt]
  exact congrArg some (Fin.ext h)

theorem keyOf_eq_none {b : Byte} (h : 16 ≤ b.toNat) : keyOf b = none :=
  dif_neg (Nat.not_lt.2 h)

theorem State.keyPressed_of_toNat_eq (s : State) {b : Byte} {k : KeyIdx} (h : b.toNat = k.val) :
    s.keyPressed b = s.key[k.val] := by
  rw [State.keyPressed, keyOf_of_toNat_eq h]

theorem State.keyPressed_eq_false (s : State) {b : Byte} (h : 16 ≤ b.toNat) : s.keyPressed b = false := by
  rw [State.keyPressed, keyOf_eq_none h]

theorem exec_skp (x : Reg) (s : State) :
    exec (.skp x) s = .next (s.jumpedTo (if s.keyPressed (s.getV x) then s.pc + 4 else s.pc + 2)) :=
  complete_skipIf s _

theorem exec_sknp (x : Reg) (s : State) :
    exec (.sknp x) s = .next (s.jumpedTo (if s.keyPressed (s.getV x) then s.pc + 2 else s.pc + 4)) := by
  have h : exec (.sknp x) s = .next (s.jumpedTo (if !s.keyPressed (s.getV x) then s.pc + 4 else s.pc + 2)) :=
    complete_skipIf s _
  cases hk : s.keyPressed (s.getV x) <;> rw [h, hk] <;> rfl

/-- Settles O38: both skips ask whether the named key is pressed, and a value above 15 names none. -/
theorem skipsOnKeys : Obligations.SkipsOnKeys := by
  intro x s
  refine ⟨_, _, exec_skp x s, exec_sknp x s, fun k hk => ?key, fun h => ?noKey, s.jumpedTo_changesOnly _,
    s.jumpedTo_changesOnly _⟩
  case key =>
    rw [s.keyPressed_of_toNat_eq hk]
    exact ⟨rfl, rfl⟩
  case noKey =>
    rw [s.keyPressed_eq_false h]
    exact ⟨rfl, rfl⟩

/-! ### The timers (R101, R103, R104) -/

theorem State.setDt_changesOnly (s : State) (b : Byte) : ChangesOnly [.dt] s (s.setDt b) := by
  intro p hp
  cases p with
  | dt => simp at hp
  | _ => rfl

theorem State.setSt_changesOnly (s : State) (b : Byte) : ChangesOnly [.st] s (s.setSt b) := by
  intro p hp
  cases p with
  | st => simp at hp
  | _ => rfl

theorem exec_ldVxDt (x : Reg) (s : State) : exec (.ldVxDt x) s = .next (s.assigned x s.dt) := rfl

theorem exec_ldDtVx (x : Reg) (s : State) : exec (.ldDtVx x) s = complete (s.advance.setDt (s.getV x)) := rfl

theorem exec_ldStVx (x : Reg) (s : State) : exec (.ldStVx x) s = complete (s.advance.setSt (s.getV x)) := rfl

/-- Settles O39: Fx07 assigns DT to Vx; Fx15 and Fx18 each complete after one timer write. -/
theorem timerTransfers : Obligations.TimerTransfers := by
  intro x s
  exact ⟨encodedAs_of_row_x rfl rfl, encodedAs_of_row_x rfl rfl, encodedAs_of_row_x rfl rfl,
    ⟨_, exec_ldVxDt x s, s.getV_assigned_same x _, rfl, s.assigned_changesOnly x _⟩,
    ⟨_, exec_ldDtVx x s, rfl, rfl, (s.advance.setDt_changesOnly _).completed _⟩,
    ⟨_, exec_ldStVx x s, rfl, rfl, (s.advance.setSt_changesOnly _).completed _⟩⟩

/-! ### The key wait (R102; decision D27) -/

theorem keyByte_toNat (k : KeyIdx) : (keyByte k).toNat = k.val :=
  Nat.mod_eq_of_lt (k.isLt.trans (by decide))

theorem State.setLastKey_changesOnly (s : State) (k : Option KeyIdx) : ChangesOnly [.lastKey] s (s.setLastKey k) := by
  intro p hp
  cases p with
  | lastKey => simp at hp
  | _ => rfl

/-- Going back over the advance restores pc, so waiting writes the step's result alone. -/
theorem exec_ldVxK_waits (x : Reg) {s : State} (h : s.lastKey = none) :
    exec (.ldVxK x) s = .next (s.setStepResult ⟨.ok, false, none⟩) := by
  have hpc : s.advance.pc - 2 = s.pc := BitVec.add_sub_cancel s.pc 2
  change execLdVxK x s = _
  simp only [execLdVxK, h, hpc]
  rfl

theorem exec_ldVxK_consumes (x : Reg) {s : State} {k : KeyIdx} (h : s.lastKey = some k) :
    exec (.ldVxK x) s = .next ((s.setLastKey none).assigned x (keyByte k)) := by
  change execLdVxK x s = _
  simp only [execLdVxK, h]
  rfl

/-- Settles O40: without a press the step only reports; with one it assigns the key after taking the press away. -/
theorem keyWaitBlocksOrConsumes : Obligations.KeyWaitBlocksOrConsumes := by
  intro x s
  refine ⟨fun h => ⟨_, exec_ldVxK_waits x h, rfl, s.setStepResult_changesOnly _⟩,
    fun k h => ⟨_, exec_ldVxK_consumes x h, ?_, rfl, rfl, (s.setLastKey_changesOnly none).assigned x _⟩⟩
  rw [State.getV_assigned_same, keyByte_toNat]

end Sys2Proof.Machine
end

section
/-! PROOFS. Fatal errors (60_exceptions.md R105 to R108): a step of a halted block, what a halting step commits, and that a loaded
block that meets the invariant always has a next state. -/

namespace Sys2Proof.Machine

/-! ### Halting and the halted block (R107, R108) -/

theorem step_of_halted_eq {s : State} {e : FatalError} {a : Word} (hp : s.phase = .loaded) (hs : s.status = .halted e a) :
    step s = .next (s.setStepResult ⟨.error e, false, none⟩) :=
  step_of_halted s e a hp hs

/-- Settles O9: the halted block's answer writes the step's result alone. -/
theorem haltedStepReturnsTheError : Obligations.HaltedStepReturnsTheError := by
  intro s e a hp hs
  exact ⟨_, step_of_halted_eq hp hs, rfl, s.setStepResult_changesOnly _⟩

/-- Settles O50: of the four ways a running block's step answers, only the raise leaves a halted status. -/
theorem fatalErrorCommitsNothing : Obligations.FatalErrorCommitsNothing := by
  intro s t e a hs h ht
  cases stepCase_of_next h with
  | again e' a' hs' _ => cases hs.symm.trans hs'
  | raised e' _ _ hraised =>
    subst hraised
    have hstatus : Status.halted e' s.pc = .halted e a := ht
    cases hstatus
    exact ⟨rfl, rfl⟩
  | unknown w _ _ _ hunknown =>
    subst hunknown
    cases hs.symm.trans ht
  | completed i _ _ hc => cases (hc.status.trans hs).symm.trans ht

/-! ### Progress (R105) -/

theorem exec_call_answers (nnn : Addr) {s : State} (hlen : s.stack.length = s.cfg.stackDepth) :
    ∃ t, exec (.call nnn) s = .next t := by
  by_cases hfull : s.cfg.stackDepth ≤ s.sp
  · exact ⟨_, exec_call_full nnn hfull⟩
  · exact ⟨_, exec_call_room nnn (by omega) (by omega)⟩

theorem exec_ret_answers {s : State} (hsp : s.sp ≤ s.stack.length) : ∃ t, exec .ret s = .next t := by
  by_cases hempty : s.sp = 0
  · exact ⟨_, exec_ret_empty hempty⟩
  · exact ⟨_, exec_ret_top (by omega) (List.getElem?_eq_getElem (by omega))⟩

/-- With a stack of STACK_DEPTH entries and SP in range (10_state.md R19, R20) every instruction has a next state: 2nnn and 00EE
find the entry they access, and the others do not look at the stack. -/
theorem exec_answers (i : Instr) {s : State} (hlen : s.stack.length = s.cfg.stackDepth) (hsp : s.sp ≤ s.cfg.stackDepth) :
    ∃ t, exec i s = .next t := by
  cases hi : usesStack i with
  | false =>
    obtain ⟨t, ht, -⟩ := exec_stackBlindAt i hi s
    exact ⟨t, ht⟩
  | true =>
    cases i
    case call nnn => exact exec_call_answers nnn hlen
    case ret => exact exec_ret_answers (hlen ▸ hsp)
    all_goals cases hi

theorem cycle_answers {s : State} (hlen : s.stack.length = s.cfg.stackDepth) (hsp : s.sp ≤ s.cfg.stackDepth) :
    ∃ t, cycle s = .next t := by
  cases hf : fetch s with
  | error e =>
    obtain ⟨t, ht, -⟩ := orRaise_raisedOnly hf _
    exact ⟨t, ht⟩
  | ok w =>
    cases hd : decode w with
    | ok i => simpa only [cycle_of_instr hf hd] using exec_answers i hlen hsp
    | error r => exact ⟨_, cycle_of_unknown hf hd⟩

/-- Settles O49: a halted block answers its error again, and a running one's cycle meets only stack entries that exist. -/
theorem loadedStepNeverStops : Obligations.LoadedStepNeverStops := by
  intro s hinv hp
  obtain ⟨-, -, hlen, hsp, -⟩ := hinv
  cases hs : s.status with
  | halted e a => exact ⟨_, step_of_halted_eq hp hs⟩
  | running => simpa only [step_of_running s hp hs] using cycle_answers hlen hsp

end Sys2Proof.Machine
end

section
/-! PROOFS. The host's operations (60_exceptions.md R113 to R119): what each does, and that each keeps the invariant, so that every
sequence of them does. -/

namespace Sys2Proof.Machine

/-- One update after another changes what either does. -/
theorem ChangesOnly.append {ps qs : List Part} {s t u : State} (h1 : ChangesOnly ps s t) (h2 : ChangesOnly qs t u) :
    ChangesOnly (ps ++ qs) s u :=
  (h1.mono fun _ => List.mem_append_left qs).trans (h2.mono fun _ => List.mem_append_right ps)

/-! ### The tick (R113) -/

/-- A tick's next state. -/
def State.ticked (s : State) : State := (s.setDt (countDown s.dt)).setSt (countDown s.st)

theorem tickTimers_eq (s : State) : tickTimers s = .next s.ticked := rfl

theorem countDown_toNat (b : Byte) : (countDown b).toNat = b.toNat - 1 := by
  unfold countDown
  split
  · bv_omega
  · omega

/-- Settles O41: each timer counts down by itself. -/
theorem tickCountsDownToZero : Obligations.TickCountsDownToZero := by
  intro s
  have hframe : ChangesOnly [.dt, .st] s s.ticked := (s.setDt_changesOnly _).append (State.setSt_changesOnly _ _)
  exact ⟨_, tickTimers_eq s, countDown_toNat s.dt, countDown_toNat s.st, hframe⟩

/-! ### The keys (R116; decisions D27, D42) -/

theorem setKey_eq (k : KeyIdx) (p : Bool) (s : State) :
    setKey k.val p s = .next ((s.recordPress k p).setKeyState k p) :=
  dif_pos k.isLt

/-- Set-key has a next state only for an index that is a key's. -/
theorem setKey_next {index : Nat} {p : Bool} {s t : State} (h : setKey index p s = .next t) :
    ∃ k : KeyIdx, t = (s.recordPress k p).setKeyState k p := by
  unfold setKey at h
  split at h <;> cases h
  exact ⟨_, rfl⟩

/-- Recording a press is a write of `last_key` at most. -/
theorem State.recordPress_eq (s : State) (k : KeyIdx) (p : Bool) :
    s.recordPress k p = s.setLastKey (if p = true ∧ s.key[k.val] = false then some k else s.lastKey) := by
  unfold State.recordPress
  by_cases hpress : p = true ∧ s.key[k.val] = false
  · rw [if_pos (by simpa using hpress), if_pos hpress]
  · rw [if_neg (by simpa using hpress), if_neg hpress]
    rfl

theorem State.setKeyState_changesOnly (s : State) (k : KeyIdx) (p : Bool) : ChangesOnly [.key k] s (s.setKeyState k p) := by
  intro q hq
  cases q with
  | key j =>
    have hne : k.val ≠ j.val := fun hkj => hq (by simp [Fin.ext hkj])
    exact Vector.getElem_set_ne k.isLt j.isLt hne
  | _ => rfl

/-- Settles O42: the press is judged by the key's state before the write. -/
theorem setKeyRecordsPresses : Obligations.SetKeyRecordsPresses := by
  intro k p s
  refine ⟨_, setKey_eq k p s, Vector.getElem_set_self _, ?_, ?_⟩ <;> rw [s.recordPress_eq k p]
  · rfl
  · exact ((s.setLastKey_changesOnly _).append (State.setKeyState_changesOnly _ k p)).mono (by simp)

/-! ### The draw flag (R117; decision D24) -/

theorem State.setDrawFlag_changesOnly (s : State) (b : Bool) : ChangesOnly [.drawFlag] s (s.setDrawFlag b) := by
  intro p hp
  cases p with
  | drawFlag => simp at hp
  | _ => rfl

/-- Settles O43: clearing the draw flag is that one write. -/
theorem clearDrawFlagClearsItOnly : Obligations.ClearDrawFlagClearsItOnly :=
  fun s => ⟨s.setDrawFlag false, rfl, rfl, s.setDrawFlag_changesOnly false⟩

/-! ### The invariant (R119) -/

/-- The two next states of a load: an image that is too long only leaves its result, another is placed from 0x200 on
(70_reset_and_hazards.md R125). -/
theorem loadProgram_next {bytes : List Byte} {s t : State} (h : loadProgram bytes s = .next t) :
    t = s.setLoadResult (.programTooLarge bytes.length) ∨
      t = ((s.writeBytes programBase bytes).setPhase .loaded).setLoadResult .ok := by
  unfold loadProgram at h
  split at h
  · cases h
  · split at h <;> cases h
    · exact .inl rfl
    · exact .inr rfl

/-- `t` has what the invariant says of `s`: the parameters, the stack and all that a halted status is compared with are the same,
and memory is canonical if it was. -/
structure KeepsRun (s t : State) : Prop where
  cfg : t.cfg = s.cfg
  stack : t.stack = s.stack
  sp : t.sp = s.sp
  pc : t.pc = s.pc
  status : t.status = s.status
  stepResult : t.stepResult = s.stepResult
  memWf : Memory.wf s.cfg s.mem → Memory.wf t.cfg t.mem

theorem KeepsRun.haltConsistent {s t : State} (h : KeepsRun s t) (hs : s.haltConsistent) : t.haltConsistent := by
  simpa only [State.haltConsistent, h.cfg, h.sp, h.pc, h.status, h.stepResult] using hs

theorem KeepsRun.inv {s t : State} (h : KeepsRun s t) (hi : s.Inv) : t.Inv := by
  obtain ⟨hc, hm, hl, hb, hh⟩ := hi
  refine ⟨?_, h.memWf hm, ?_, ?_, h.haltConsistent hh⟩
  · rwa [h.cfg]
  · rwa [h.stack, h.cfg]
  · rwa [h.sp, h.cfg]

theorem loadProgram_keepsRun {bytes : List Byte} {s t : State} (h : loadProgram bytes s = .next t) : KeepsRun s t := by
  obtain rfl | rfl := loadProgram_next h
  · exact ⟨rfl, rfl, rfl, rfl, rfl, rfl, id⟩
  · refine ⟨?_, ?_, ?_, ?_, ?_, ?_, fun hm => s.writeBytes_wf hm programBase bytes⟩ <;> simp

theorem tickTimers_keepsRun {s t : State} (h : tickTimers s = .next t) : KeepsRun s t := by
  cases h
  exact ⟨rfl, rfl, rfl, rfl, rfl, rfl, id⟩

theorem setKey_keepsRun {index : Nat} {p : Bool} {s t : State} (h : setKey index p s = .next t) : KeepsRun s t := by
  obtain ⟨k, rfl⟩ := setKey_next h
  rw [s.recordPress_eq k p]
  exact ⟨rfl, rfl, rfl, rfl, rfl, rfl, id⟩

theorem clearDrawFlag_keepsRun {s t : State} (h : clearDrawFlag s = .next t) : KeepsRun s t := by
  cases h
  exact ⟨rfl, rfl, rfl, rfl, rfl, rfl, id⟩

/-- Settles O59: a step keeps the invariant by `stepKeepsInv`, and the host's other operations keep all it speaks of. -/
theorem everyHostOperationKeepsInv : Obligations.EveryHostOperationKeepsInv := by
  intro s t op hinv h
  cases op with
  | load bytes => exact (loadProgram_keepsRun h).inv hinv
  | step => exact stepKeepsInv s t hinv h
  | tick => exact (tickTimers_keepsRun h).inv hinv
  | setKey index pressed => exact (setKey_keepsRun h).inv hinv
  | clearDrawFlag => exact (clearDrawFlag_keepsRun h).inv hinv

theorem performAll_cons_next {op : HostOp} {ops : List HostOp} {s u : State} (h : performAll (op :: ops) s = .next u) :
    ∃ t, perform op s = .next t ∧ performAll ops t = .next u := by
  unfold performAll at h
  split at h
  · exact ⟨_, ‹_›, h⟩
  · cases h
  · cases h

/-- What every operation keeps, every sequence of operations keeps. -/
theorem performAll_keeps {P : State → Prop} (hP : ∀ s t op, P s → perform op s = .next t → P t) {ops : List HostOp}
    {s t : State} (hs : P s) (h : performAll ops s = .next t) : P t := by
  induction ops generalizing s with
  | nil =>
    cases h
    exact hs
  | cons op ops ih =>
    obtain ⟨u, hu, hrest⟩ := performAll_cons_next h
    exact ih (hP s u op hs hu) hrest

/-- Settles O48: construction meets the invariant and every operation keeps it. -/
theorem everyHostSequenceKeepsInv : Obligations.EveryHostSequenceKeepsInv :=
  fun c _ _ hc h => performAll_keeps everyHostOperationKeepsInv (construct_inv c hc) h

end Sys2Proof.Machine
end

section
/-! PROOFS. The load (70_reset_and_hazards.md R125), the operations that have no move (R126; 60_exceptions.md R116), and the jump to
itself (70_reset_and_hazards.md R131). -/

namespace Sys2Proof.Machine

/-! ### The load (R125; decisions D39, D40) -/

theorem loadProgram_of_loaded (bytes : List Byte) {s : State} (hp : s.phase = .loaded) :
    loadProgram bytes s = .refused .secondLoad := by
  rw [loadProgram, hp]

/-- The next state of a load whose image fits. -/
def State.withProgram (s : State) (bytes : List Byte) : State :=
  ((s.writeBytes programBase bytes).setPhase .loaded).setLoadResult .ok

theorem loadProgram_of_fits {bytes : List Byte} {s : State} (hp : s.phase = .empty) (hlen : bytes.length ≤ maxProgramLen) :
    loadProgram bytes s = .next (s.withProgram bytes) := by
  rw [loadProgram, hp]
  exact if_neg (Nat.not_lt.2 hlen)

theorem loadProgram_of_tooLarge {bytes : List Byte} {s : State} (hp : s.phase = .empty) (hlen : maxProgramLen < bytes.length) :
    loadProgram bytes s = .next (s.setLoadResult (.programTooLarge bytes.length)) := by
  rw [loadProgram, hp]
  exact if_pos hlen

/-- An image that fits ends inside the 4096 bytes, the last of them left free (decision D40). -/
theorem image_inRange {len : Nat} (hlen : len ≤ maxProgramLen) : programBase + len ≤ memSize := by
  unfold maxProgramLen at hlen
  unfold programBase memSize
  omega

theorem State.setPhase_changesOnly (s : State) (p : Phase) : ChangesOnly [.phase] s (s.setPhase p) := by
  intro q hq
  cases q with
  | phase => simp at hq
  | _ => rfl

theorem State.setLoadResult_changesOnly (s : State) (r : LoadResult) : ChangesOnly [.loadResult] s (s.setLoadResult r) := by
  intro p hp
  cases p with
  | loadResult => simp at hp
  | _ => rfl

/-- Bytes outside the image keep their value, those after it included (decision D39). -/
theorem State.withProgram_changesOnly {s : State} (hwf : Memory.wf s.cfg s.mem) {bytes : List Byte}
    (hlen : bytes.length ≤ maxProgramLen) :
    ChangesOnly (memParts programBase bytes.length ++ [.phase, .loadResult]) s (s.withProgram bytes) :=
  (writeBytes_changesOnly s hwf programBase bytes (image_inRange hlen)).append
    ((State.setPhase_changesOnly _ _).append (State.setLoadResult_changesOnly _ _))

/-- Settles O44: an image that fits is one block write at 0x200 with the phase and the result after it; one that is too long is a
write of the result. -/
theorem loadPlacesTheImage : Obligations.LoadPlacesTheImage := by
  intro bytes s hwf hp
  refine ⟨fun hlen => ⟨_, loadProgram_of_fits hp hlen, ?_, rfl, rfl, State.withProgram_changesOnly hwf hlen⟩,
    fun hlen => ⟨_, loadProgram_of_tooLarge hp hlen, rfl, s.setLoadResult_changesOnly _⟩⟩
  exact fun k hk => s.readByte_writeBytes_at hwf (image_inRange hlen) hk

/-! ### The host's duties (R116, R126; decisions D35, D41) -/

theorem setKey_of_noSuchKey {index : Nat} (p : Bool) (s : State) (h : 16 ≤ index) :
    setKey index p s = .refused (.noSuchKey index) :=
  dif_neg (Nat.not_lt.2 h)

/-- Settles O10: each operation tests the host's duty before anything else. -/
theorem hostDutiesAreRefused : Obligations.HostDutiesAreRefused :=
  ⟨step_of_empty, fun _ bytes hp => loadProgram_of_loaded bytes hp, fun s _ p hk => setKey_of_noSuchKey p s hk⟩

/-! ### The jump to itself (R131; decision D37) -/

/-- A step of a loaded, running block is the meaning of the instruction it fetches. -/
theorem step_of_nextInstr {s : State} {i : Instr} (hp : s.phase = .loaded) (hs : s.status = .running)
    (hi : nextInstr s = some i) : step s = exec i s := by
  obtain ⟨w, hw, hd⟩ := nextInstr_eq_some hi
  rw [step_of_running s hp hs, cycle_of_instr hw hd]

/-- A loaded, running block whose next instruction is 1nnn at the address nnn. -/
structure AtSelfJump (nnn : Addr) (s : State) : Prop where
  loaded : s.phase = .loaded
  running : s.status = .running
  jump : nextInstr s = some (.jp nnn)
  target : s.pc.toNat = nnn.toNat

/-- The jump writes to pc what pc holds, so the step writes its result alone. -/
theorem AtSelfJump.step_eq {nnn : Addr} {s : State} (h : AtSelfJump nnn s) :
    step s = .next (s.setStepResult ⟨.ok, false, none⟩) := by
  have hpc : zextAddr nnn = s.pc := BitVec.eq_of_toNat_eq ((zextAddr_toNat nnn).trans h.target.symm)
  rw [step_of_nextInstr h.loaded h.running h.jump, exec_jp, hpc]
  rfl

/-- Nothing the next step looks at is the last step's result. -/
theorem AtSelfJump.setStepResult {nnn : Addr} {s : State} (h : AtSelfJump nnn s) (r : StepResult) :
    AtSelfJump nnn (s.setStepResult r) :=
  ⟨h.loaded, h.running, h.jump, h.target⟩

theorem core_run_succ {s t : State} (h : step s = .next t) (k : Nat) :
    Host.Core.run Sys2Proof.core (k + 1) s = Host.Core.run Sys2Proof.core k t := by
  have hstep : Sys2Proof.core.step s = .next t := h
  simp only [Host.Core.run, hstep]

/-- Each step leaves a state at the same jump, so the next one can follow. -/
theorem AtSelfJump.run (k : Nat) {nnn : Addr} {s : State} (h : AtSelfJump nnn s) :
    ∃ t, Host.Core.run Sys2Proof.core k s = .next t ∧ ChangesOnly [.stepResult] s t := by
  induction k generalizing s with
  | zero => exact ⟨s, rfl, fun p _ => p.same_refl s⟩
  | succ k ih =>
    obtain ⟨t, ht, hframe⟩ := ih (h.setStepResult ⟨.ok, false, none⟩)
    exact ⟨t, (core_run_succ h.step_eq k).trans ht, (s.setStepResult_changesOnly _).trans hframe⟩

/-- Settles O58: the jump to itself is still the next instruction after every step. -/
theorem selfJumpRunsForEver : Obligations.SelfJumpRunsForEver :=
  fun k _ _ hp hs hi hpc => AtSelfJump.run k ⟨hp, hs, hi, hpc⟩

end Sys2Proof.Machine
end
